-- ==== Sys2Proof/Word.lean ====
section
/-! DEFINITION. The word types of HUFFCORE: a register is 32 bits (10_state.md section 2), a byte of
the output stream is 8 bits (R45), a symbol is at most 16 bits (R5). -/

namespace Sys2Proof

/-- A register of the window, and a command word (R90, 10_state.md section 2). -/
abbrev Word := BitVec 32

/-- A byte of the packer and of the output FIFO (R44, R45). -/
abbrev Byte := BitVec 8

/-- A symbol. SYMW is 8 or 16 (R5), so 16 bits hold a symbol of either width; that a symbol
fits the configured SYMW is a check (`Config.symFits`), log entry 7. -/
abbrev Symbol := BitVec 16

end Sys2Proof
end

