-- ==== Sys2Proof/Config.lean ====
section
/-! DEFINITION. The parameters the spec leaves open (00_scope.md section 3, R5 to R9). A model takes
them as parameters: here they are ONE plain record, which State carries as its hardwired
configuration, so that a statement about every state is a statement about every configuration. -/

namespace Sys2Proof

/-- The parameters of one HUFFCORE (R5, R6, R7 and HUFF_BASE of R8). BUS_PROTOCOL, LAT and
RESET_KIND have no field: no rule of the functional model depends on their values (R8). -/
structure Config where
  /-- SYMW, the width of one symbol in bits (R5). -/
  symw : Nat
  /-- FREQW, the width of every count (R6). -/
  freqw : Nat
  /-- OFIFO_DEPTH, the bytes the output FIFO holds (R7). -/
  ofifoDepth : Nat
  /-- HUFF_BASE, the bus address of register offset 0 (R8, R60). -/
  huffBase : Nat
  deriving DecidableEq, Repr

namespace Config

/-- The bounds R5, R6, R7 and R60 put on the parameters. -/
abbrev Legal (c : Config) : Prop :=
  (c.symw = 8 ∨ c.symw = 16) ∧ (1 ≤ c.freqw ∧ c.freqw ≤ 32) ∧
  (1 ≤ c.ofifoDepth ∧ c.ofifoDepth ≤ 65535) ∧ c.huffBase % 64 = 0

/-- The reference configuration of R5, R6 and R7. HUFF_BASE has no reference value; 0 is the
model's (DESIGN CHOICE, log entry 1). -/
def reference : Config where
  symw := 8
  freqw := 32
  ofifoDepth := 16
  huffBase := 0

/-- NSYM_MAX = 2^SYMW, the size of the alphabet (R9). -/
abbrev nsymMax (c : Config) : Nat := 2 ^ c.symw

/-- NODE_MAX = 2·NSYM_MAX − 1, the entries of the node store (R9). -/
abbrev nodeMax (c : Config) : Nat := 2 * c.nsymMax - 1

/-- FMAX = 2^FREQW − 1, the largest count and the largest TOTAL (R9). -/
abbrev fmax (c : Config) : Nat := 2 ^ c.freqw - 1

end Config
end Sys2Proof
end

