-- ==== Sys2Proof/Syntax.lean ====
section
/-! DEFINITION. The commands of HUFFCORE, one constructor per row of spec/opcode_table.json (R92),
with their operand as R91 gives its value. The constructors of CLOSE and OPEN are called
closeStream and openStream (`open` is a Lean keyword); LAWS.json maps every constructor to its
mnemonic. -/

namespace Sys2Proof

/-- A command: "the HUFFCORE analogue of an instruction" (R13). -/
inductive Instr where
  /-- NOP (R175), operand kind NONE. -/
  | nop
  /-- CLEAR (R176), operand kind NONE. -/
  | clear
  /-- COUNT (R110), operand kind SYM. -/
  | count (sym : Symbol)
  /-- BUILD (R120), operand kind NONE. -/
  | build
  /-- RESOLVE (R140), operand kind SYM. -/
  | resolve (sym : Symbol)
  /-- ENCODE (R165), operand kind SYM. -/
  | encode (sym : Symbol)
  /-- PUTBIT (R152), operand kind BIT. -/
  | putbit (b : Bool)
  /-- CLOSE (R153), operand kind NONE. -/
  | closeStream
  /-- OPEN (R154), operand kind NONE. -/
  | openStream
  /-- GETFREQ (R111), operand kind SYM. -/
  | getfreq (sym : Symbol)
  /-- DEPTH (R130), operand kind NONE. -/
  | depth
  /-- NODERD (R131), operand kind IDX: 17 bits. -/
  | noderd (idx : BitVec 17)
  deriving DecidableEq, Repr

end Sys2Proof
end

