-- ==== Sys2Proof/WellFormed.lean ====
section
/-! DEFINITION. When a command is well formed under a configuration. The operand kinds NONE, BIT and
IDX cannot be ill formed once decoded (their types hold exactly the values R91 allows); a SYM
operand must be a symbol of the alphabet, 0 to 2^SYMW − 1 (R5, R91). -/

namespace Sys2Proof

/-- `sym` is a symbol of the alphabet: the condition OPND[23:SYMW] = 0 of R91, said of the value. -/
abbrev Config.SymFits (c : Config) (sym : Symbol) : Prop := sym.toNat < c.nsymMax

/-- The check of R91 on a command's operand, kind by kind. -/
def Instr.wellFormed (c : Config) : Instr → Bool
  | .count sym | .resolve sym | .encode sym | .getfreq sym => decide (c.SymFits sym)
  | .nop | .clear | .build | .putbit _ | .closeStream | .openStream | .depth | .noderd _ => true

/-- The operand of `i` passes its check under configuration `c`. -/
abbrev Instr.WellFormed (c : Config) (i : Instr) : Prop := i.wellFormed c = true

end Sys2Proof
end

