-- ==== Sys2Proof/Decode.lean ====
section
/-! DEFINITION. The decoder of R96, total on 32-bit words, which rejects by name (an unassigned
opcode, R93; a bad operand, R91 and R92), and after it the encoder, written from the same table
(30_encoding.md section 2). -/

namespace Sys2Proof

/-- The four operand kinds of R91. -/
inductive OperandKind where
  /-- NONE: OPND must be 0. -/
  | noOperand
  /-- SYM: a symbol in OPND[SYMW−1:0]. -/
  | sym
  /-- BIT: one bit in OPND[0]. -/
  | bit
  /-- IDX: a node index in OPND[16:0]. -/
  | idx
  deriving DecidableEq, Repr

/-- The assigned opcodes, by mnemonic (R92). -/
inductive Opcode where
  | nop | clear | count | build | resolve | encode
  | putbit | closeStream | openStream | getfreq | depth | noderd
  deriving DecidableEq, Repr

/-- The rows of R92's table, in its order. -/
def Opcode.all : List Opcode :=
  [.nop, .clear, .count, .build, .resolve, .encode,
   .putbit, .closeStream, .openStream, .getfreq, .depth, .noderd]

/-- Column OPC of R92. -/
def Opcode.bits : Opcode → BitVec 8
  | .nop => 0x00
  | .clear => 0x01
  | .count => 0x02
  | .build => 0x03
  | .resolve => 0x04
  | .encode => 0x05
  | .putbit => 0x06
  | .closeStream => 0x07
  | .openStream => 0x08
  | .getfreq => 0x09
  | .depth => 0x0A
  | .noderd => 0x0B

/-- Column "operand kind" of R92. -/
def Opcode.kind : Opcode → OperandKind
  | .nop | .clear | .build | .closeStream | .openStream | .depth => .noOperand
  | .count | .resolve | .encode | .getfreq => .sym
  | .putbit => .bit
  | .noderd => .idx

/-- The row of R92 with opcode `b`; none for the unassigned opcodes 0x0C to 0xFF (R93). -/
def Opcode.ofBits? (b : BitVec 8) : Option Opcode :=
  Opcode.all.find? fun op => op.bits == b

/-- OPC = w[31:24] (R90, R95). -/
def opcField (w : Word) : BitVec 8 := w.extractLsb' 24 8

/-- OPND = w[23:0] (R90). -/
def opndField (w : Word) : BitVec 24 := w.extractLsb' 0 24

/-- The check column of R91: the operand bits that must be 0 are. -/
def OperandKind.check (c : Config) (opnd : BitVec 24) : OperandKind → Bool
  | .noOperand => opnd == 0
  | .sym => opnd >>> c.symw == 0
  | .bit => opnd >>> 1 == 0
  | .idx => opnd >>> 17 == 0

/-- The command an opcode makes of an operand that passed its check: the value column of R91. -/
def Opcode.command (opnd : BitVec 24) : Opcode → Instr
  | .nop => .nop
  | .clear => .clear
  | .count => .count (opnd.setWidth 16)
  | .build => .build
  | .resolve => .resolve (opnd.setWidth 16)
  | .encode => .encode (opnd.setWidth 16)
  | .putbit => .putbit (opnd.getLsbD 0)
  | .closeStream => .closeStream
  | .openStream => .openStream
  | .getfreq => .getfreq (opnd.setWidth 16)
  | .depth => .depth
  | .noderd => .noderd (opnd.setWidth 17)

/-- What R96's decoder answers. -/
inductive Decoded where
  /-- Cmd(opc, value). -/
  | cmd (i : Instr)
  /-- BadOperand(opc): an assigned opcode whose operand check fails. -/
  | badOperand (op : Opcode)
  /-- Unassigned: OPC is 0x0C to 0xFF. -/
  | unassigned
  deriving DecidableEq, Repr

/-- R96, line by line. -/
def decode (c : Config) (w : Word) : Decoded :=
  match Opcode.ofBits? (opcField w) with
  | none => .unassigned
  | some op =>
    if op.kind.check c (opndField w) then .cmd (op.command (opndField w)) else .badOperand op

/-- The opcode of a command (R92). -/
def Instr.opcode : Instr → Opcode
  | .nop => .nop
  | .clear => .clear
  | .count _ => .count
  | .build => .build
  | .resolve _ => .resolve
  | .encode _ => .encode
  | .putbit _ => .putbit
  | .closeStream => .closeStream
  | .openStream => .openStream
  | .getfreq _ => .getfreq
  | .depth => .depth
  | .noderd _ => .noderd

/-- OPND of a command (R91): the operand value, zero-extended to 24 bits. -/
def Instr.opnd : Instr → BitVec 24
  | .nop | .clear | .build | .closeStream | .openStream | .depth => 0
  | .count sym | .resolve sym | .encode sym | .getfreq sym => sym.setWidth 24
  | .putbit b => (BitVec.ofBool b).setWidth 24
  | .noderd idx => idx.setWidth 24

/-- The command word of a command: OPC in bits 31 to 24, OPND in bits 23 to 0 (R90). -/
def encode (i : Instr) : Word := i.opcode.bits ++ i.opnd

/-- The command that the decoder, in the reference configuration, reads from the word whose low
`nbits` bits are `w` and whose other bits are 0; none where it rejects the word. A command word
is one 32-bit word, written to CMD whole (R95), so there is no byte order to apply. -/
def decodeTableWord (nbits w : Nat) : Option Instr :=
  match decode Config.reference (BitVec.ofNat 32 (w % 2 ^ nbits)) with
  | .cmd i => some i
  | .badOperand _ => none
  | .unassigned => none

end Sys2Proof
end

