-- ==== Sys2Proof/Machine/State.lean ====
section
/-! DEFINITION. The state of HUFFCORE (10_state.md), the HOST's waiting accesses, the ways a step can
stop, and the state after reset (R50). Plain data throughout. -/

namespace Sys2Proof.Machine

/-- The error codes of R185, by name. Codes 10 to 15 are never written, so they have no
constructor (log entry 12). -/
inductive ErrCode where
  /-- 0 NONE: the command completed without error. -/
  | noError
  /-- 1 OPCODE: OPC is unassigned. -/
  | opcode
  /-- 2 OPERAND: operand bits that must be 0 are not. -/
  | operand
  /-- 3 PHASE: the command is not allowed in the current phase. -/
  | phase
  /-- 4 PKSTATE: a packer usage error. -/
  | pkstate
  /-- 5 EMPTY: BUILD with an empty frequency table. -/
  | empty
  /-- 6 OVERFLOW: COUNT with TOTAL = FMAX. -/
  | overflow
  /-- 7 NOTFOUND: ENCODE of a symbol with no leaf. -/
  | notFound
  /-- 8 OFULL: a byte must be emitted and the output FIFO is full. -/
  | ofull
  /-- 9 RANGE: NODERD with idx ≥ NNODES. -/
  | range
  deriving DecidableEq, Repr

/-- The kind bit of a node (R42): 0 = LEAF, 1 = INTERNAL. -/
inductive NodeKind where
  | leaf
  | internal
  deriving DecidableEq, Repr

/-- One entry of the node store, with the fields of R42. -/
structure Node where
  kind : NodeKind
  /-- The symbol of a LEAF, 0 for an INTERNAL node. -/
  sym : Symbol
  /-- The frequency. -/
  f : Nat
  /-- The assigned bit. -/
  bit : Bool
  /-- Index of the left child, 0 for a LEAF. -/
  left : Nat
  /-- Index of the right child, 0 for a LEAF. -/
  right : Nat
  deriving DecidableEq, Repr

/-- NODE, NNODES and ROOT (R42). -/
structure NodeStore where
  /-- The entries that hold a value, from index 0 on. -/
  nodes : List Node
  /-- NNODES, the number of valid entries. -/
  nnodes : Nat
  /-- ROOT, the index of the root. -/
  root : Nat
  deriving DecidableEq, Repr

/-- PHASE (R27), with the node store where there is one: it "holds no value until a BUILD
completes" (R43) and none again after CLEAR (R176), so COUNTING carries no store (log entry 10). -/
inductive Phase where
  | counting
  | built (store : NodeStore)
  deriving DecidableEq, Repr

/-- CNT (R41) as a sparse table in one canonical form: symbols strictly rising, every listed count
positive; an unlisted symbol has count 0 (log entry 9). -/
abbrev FreqTable := List (Nat × Nat)

/-- What a HOST access does (R11, R62). -/
inductive AccessOp where
  | read
  | write (data : Word)
  deriving DecidableEq, Repr

/-- One access of the HOST on the bus (R62). -/
structure HostAccess where
  op : AccessOp
  /-- The bus address of its lowest byte. -/
  addr : Nat
  /-- How many bytes wide it is. -/
  bytes : Nat
  /-- No byte enable of the access is off. -/
  allLanes : Bool
  deriving DecidableEq, Repr

/-- The sixteen registers of the window (10_state.md section 2). -/
inductive Reg where
  | id | cfg | cmd | status | res0 | res1 | res2 | res3
  | out | outlvl | pk | bytesout | nsym | total | sticky | reserved
  deriving DecidableEq, Repr

/-- A loop of the HOST's program (R99, R206): `loop: rd reg -> v; if v[bit] ≠ stop goto loop`. It may
have no end. A loop writes no command, so at most one completion comes inside it. -/
structure HostLoop where
  /-- The register it reads. -/
  reg : Reg
  /-- The bit it looks at. -/
  bit : Nat
  /-- The value of that bit that ends it. -/
  stop : Bool
  /-- How many reads still come before the completion of a pending command: "any finite number of
  HOST steps" (R70). -/
  polls : Nat
  deriving DecidableEq, Repr

/-- One item of the interleaving of R70, or an event on the reset input (R215). -/
inductive Turn where
  /-- A HOST step. -/
  | host (access : HostAccess)
  /-- The HOST steps of a loop, with the CORE step that comes between them. -/
  | loop (l : HostLoop)
  /-- A CORE step. -/
  | core
  /-- The reset input is asserted and released. -/
  | reset
  deriving DecidableEq, Repr

/-- Who takes a step (R70), or the reset input (R215). -/
inductive Act where
  | host (access : HostAccess)
  | core
  | reset
  deriving DecidableEq, Repr

/-- HUFFCORE's answer to a HOST access. -/
inductive Reply where
  /-- A read returned this word. -/
  | data (w : Word)
  /-- A write was taken. -/
  | done
  /-- The bus error response of R62. -/
  | busError
  deriving DecidableEq, Repr

/-- The state. `cfg` is the hardwired configuration (R23); `turns` and `reply` are the model's own
(log entries 2 and 13); every other field is a state element of R50's table. STATUS, PK, OUT and
OUTLVL are views of these (R25, R30, R33 to R35), and BUSY is `pend.isSome` (R26). -/
structure State where
  /-- The parameters, which CFG shows (R23). No step changes them. -/
  cfg : Config
  /-- PEND, the pending-command slot (R40). -/
  pend : Option Word
  /-- PHASE, NODE, NNODES and ROOT (R27, R42, R43). -/
  phase : Phase
  /-- ERR (R29). -/
  err : ErrCode
  /-- DONECNT, modulo 2^16 (R31). -/
  donecnt : BitVec 16
  /-- RES0 (R32). -/
  res0 : Word
  /-- RES1 (R32). -/
  res1 : Word
  /-- RES2 (R32). -/
  res2 : Word
  /-- RES3 (R32). -/
  res3 : Word
  /-- CNT (R41). -/
  cnt : FreqTable
  /-- NSYM (R37). -/
  nsym : Nat
  /-- TOTAL (R38). -/
  total : Nat
  /-- PKOPEN (R28): true = open. -/
  pkopen : Bool
  /-- PKBUF (R44). -/
  pkbuf : Byte
  /-- PKBITS, 0 to 7 (R44). -/
  pkbits : BitVec 3
  /-- BYTESOUT, modulo 2^32 (R36). -/
  bytesout : Word
  /-- The output FIFO, head first (R45). -/
  fifo : List Byte
  /-- STICKY[9:0] (R39); bits 31 to 10 are reserved and read 0 (log entry 12). -/
  sticky : BitVec 10
  /-- The turns to come: the HOST's accesses and loops in its program order (R74), interleaved with
  the CORE's completions and with resets. -/
  turns : List Turn
  /-- The answer to the HOST's latest access; none where there was none. -/
  reply : Option Reply
  deriving DecidableEq, Repr

/-- Why the machine stops. No error of a command is a fault (R206). -/
inductive Fault where
  /-- The HOST made an access R62 does not define: "A model treats such an access as a HOST fault".
  Raised by `step` on a HOST turn. Safe: the hardware goes on with a bus error response and no
  side effect (log entry 5). -/
  | undefinedAccess (access : HostAccess)
  /-- A command read a node-store entry that holds no value (R43; 93_implementation_defined.md row 15,
  "any read would be `fault`"). Raised by NODERD, DEPTH, RESOLVE and ENCODE, and by BUILD where it
  would set ROOT from an empty working list, only in states that break R48. Safe (log entry 10). -/
  | nodeHasNoValue
  /-- A search or depth walk met a node store with a cycle, on which the pseudocode of R130 or R142 does
  not end. Raised by DEPTH, RESOLVE and ENCODE, only in states that break R48. Safe (log entry 10). -/
  | walkDoesNotEnd
  deriving DecidableEq, Repr

/-- Why an instruction has no meaning. -/
inductive Refusal where
  /-- The instruction has no meaning in the model yet. Raised by `exec` alone. Safe. -/
  | notModelled (mnemonic : String)
  deriving DecidableEq, Repr

/-- What a step answers. -/
abbrev Result := Host.Outcome State Fault Refusal

/-- The state after reset of a HUFFCORE with parameters `c`: R50's table, line by line. -/
def State.resetWith (c : Config) : State where
  cfg := c
  pend := none
  phase := .counting
  err := .noError
  donecnt := 0
  res0 := 0
  res1 := 0
  res2 := 0
  res3 := 0
  cnt := []
  nsym := 0
  total := 0
  pkopen := true
  pkbuf := 0
  pkbits := 0
  bytesout := 0
  fifo := []
  sticky := 0
  turns := []
  reply := none

/-- The machine right after reset (R50, R216), in the reference configuration (log entry 1). -/
def State.reset : State := State.resetWith Config.reference

end Sys2Proof.Machine
end

