-- ==== Sys2Proof/Machine/Flags.lean ====
section
/-! DEFINITION. The status flags (R49): the numbers of the error codes (R185), STATUS put together
from its fields (R25), and the STICKY bits (R39). -/

namespace Sys2Proof.Machine

/-- The code column of R185. -/
def ErrCode.code : ErrCode → BitVec 4
  | .noError => 0
  | .opcode => 1
  | .operand => 2
  | .phase => 3
  | .pkstate => 4
  | .empty => 5
  | .overflow => 6
  | .notFound => 7
  | .ofull => 8
  | .range => 9

/-- Every code of R185, in order. -/
def ErrCode.all : List ErrCode :=
  [.noError, .opcode, .operand, .phase, .pkstate, .empty, .overflow, .notFound, .ofull, .range]

/-- STICKY with bit `k` set. -/
def stickySet (sticky : BitVec 10) (k : Nat) : BitVec 10 := sticky ||| BitVec.twoPow 10 k

/-- R186, second line: `if e != NONE: STICKY[e] <- 1`. -/
def stickyAfter (sticky : BitVec 10) (e : ErrCode) : BitVec 10 :=
  if e = .noError then sticky else stickySet sticky e.code.toNat

/-- R39: a HOST write of `v` clears every bit that is 1 in `v` and leaves the others. -/
def stickyClear (sticky : BitVec 10) (v : Word) : BitVec 10 := sticky &&& ~~~(v.setWidth 10)

/-- STATUS.BUSY: "1 exactly when PEND holds a command" (R26). -/
def State.busy (s : State) : Bool := s.pend.isSome

/-- STATUS.PHASE: 0 = COUNTING, 1 = BUILT (R25). -/
def Phase.bits : Phase → BitVec 2
  | .counting => 0
  | .built _ => 1

/-- There is a tree (R27). -/
def Phase.isBuilt : Phase → Bool
  | .counting => false
  | .built _ => true

/-- STATUS with the fields of R25, from bit 31 down to bit 0. -/
def State.status (s : State) : Word :=
  s.donecnt ++ 0#5 ++ s.pkbits ++ s.err.code ++ BitVec.ofBool s.pkopen ++ s.phase.bits ++
    BitVec.ofBool s.busy

end Sys2Proof.Machine
end

