-- ==== Sys2Proof/Machine/Operands.lean ====
section
/-! DEFINITION. What an operand reaches: the entry CNT[sym] of the frequency table (R41), the entry
NODE[idx] of the node store (R42), and the register a HOST access names (10_state.md section 2). -/

namespace Sys2Proof.Machine

/-- CNT[s] (R11): the count listed for `s`, 0 where `s` is not listed. -/
def FreqTable.read : FreqTable → Nat → Nat
  | [], _ => 0
  | (k, v) :: rest, s => if k = s then v else FreqTable.read rest s

/-- CNT[s] <- n (R11), keeping the canonical form: a count of 0 is not listed. -/
def FreqTable.write : FreqTable → Nat → Nat → FreqTable
  | [], s, n => if n = 0 then [] else [(s, n)]
  | (k, v) :: rest, s, n =>
    if s < k then (if n = 0 then (k, v) :: rest else (s, n) :: (k, v) :: rest)
    else if s = k then (if n = 0 then rest else (s, n) :: rest)
    else (k, v) :: FreqTable.write rest s n

/-- The canonical form of CNT: symbols strictly rising, every listed count positive. -/
abbrev FreqTable.Wf (t : FreqTable) : Prop :=
  t.Pairwise (fun a b => a.1 < b.1) ∧ ∀ p ∈ t, 0 < p.2

/-- The sum of the counts. -/
def FreqTable.sum (t : FreqTable) : Nat := (t.map Prod.snd).sum

/-- NODE[i], where it holds a value: "Valid entries are indices 0 to NNODES − 1" (R42). -/
def NodeStore.entry? (t : NodeStore) (i : Nat) : Option Node :=
  if i < t.nnodes then t.nodes[i]? else none

/-- The registers in the order of their offsets 0x00, 0x04, … 0x3C. -/
def Reg.all : List Reg :=
  [.id, .cfg, .cmd, .status, .res0, .res1, .res2, .res3,
   .out, .outlvl, .pk, .bytesout, .nsym, .total, .sticky, .reserved]

/-- "HUFFCORE decodes only address bits [5:2] of an access in its window" (R60). -/
def Reg.ofAddress (addr : Nat) : Reg := Reg.all.getD (addr / 4 % 16) .reserved

/-- The offset of a register from HUFF_BASE. -/
def Reg.offset (r : Reg) : Nat := 4 * Reg.all.idxOf r

/-- A byte of the access lies in the window HUFF_BASE to HUFF_BASE + 0x3F; other accesses do not
reach HUFFCORE (R60, log entry 6). -/
def HostAccess.reaches (a : HostAccess) (c : Config) : Bool :=
  decide (0 < a.bytes) && decide (a.addr < c.huffBase + 64) && decide (c.huffBase < a.addr + a.bytes)

/-- "The only defined HOST access is a 32-bit read or write of a whole word at a 4-byte-aligned
address in the window" (R62). -/
def HostAccess.isDefined (a : HostAccess) (c : Config) : Bool :=
  decide (a.bytes = 4) && a.allLanes && decide (a.addr % 4 = 0) &&
    (decide (c.huffBase ≤ a.addr) && decide (a.addr < c.huffBase + 64))

end Sys2Proof.Machine
end

