-- ==== Sys2Proof/Machine/Ops.lean ====
section
/-! DEFINITION. The shared operations: the completion of a command with its error code, which is all
that HUFFCORE has of exception entry (R186, R190), and its checks in priority order (R187); the
result registers (R32); the packer and the FIFO (R150, R151); the HOST's reads and writes of the
register window (20_memory.md). -/

namespace Sys2Proof.Machine

/-! ### Completion and errors (60_exceptions.md) -/

/-- The completion bookkeeping of R186 with code `e`. BUSY falls because PEND empties (R26). -/
def State.bookkeep (s : State) (e : ErrCode) : State :=
  { s with
    err := e
    sticky := stickyAfter s.sticky e
    pend := none
    donecnt := s.donecnt + 1 }

/-- `raise Error(e)`: "skip the rest of the command and do this bookkeeping with code e" (R186). There
is no trap mechanism and so no return from one (R190, R191). -/
def raise (e : ErrCode) (s : State) : Result := .next (s.bookkeep e)

/-- A command that reached its end completes with ERR = NONE (R186). -/
def finish (s : State) : Result := .next (s.bookkeep .noError)

/-- One check of a command's list: where it fails, the command raises its error and nothing after it
is looked at (R187). -/
def require (ok : Prop) [Decidable ok] (e : ErrCode) (s : State) (rest : Result) : Result :=
  if ok then rest else raise e s

/-- What a command does with the node store, in its checks' order: PHASE unless there is one. -/
def withStore (s : State) (k : NodeStore → Result) : Result :=
  match s.phase with
  | .counting => raise .phase s
  | .built t => k t

/-- Go on with the value of a read of the node store, or stop where there is none. -/
def withValue {α : Type} (x : Except Fault α) (k : α → Result) : Result :=
  match x with
  | .error f => .fault f
  | .ok a => k a

/-! ### Result registers (R32) -/

/-- RES0 to RES3, all four written. -/
def State.setRes (s : State) (r0 r1 r2 r3 : Word) : State :=
  { s with res0 := r0, res1 := r1, res2 := r2, res3 := r3 }

/-! ### Packer and FIFO (43_bit_packer.md) -/

/-- OUTLVL, the number of bytes in the output FIFO (R34). -/
def State.outlvl (s : State) : Nat := s.fifo.length

/-- "OUTLVL = OFIFO_DEPTH": there is no room for a byte (R185, OFULL). -/
abbrev State.FifoFull (s : State) : Prop := s.outlvl = s.cfg.ofifoDepth

/-- push_out(b) of R150. -/
def State.pushOut (s : State) (b : Byte) : State :=
  { s with fifo := s.fifo ++ [b], bytesout := s.bytesout + 1 }

/-- `b` with bit `i` made `v`. -/
def byteSetBit (b : Byte) (i : Nat) (v : Bool) : Byte :=
  if v then b ||| BitVec.twoPow 8 i else b &&& ~~~(BitVec.twoPow 8 i)

/-- PKBUF after R151's first line, `PKBUF[7 - PKBITS] <- bit`. -/
def State.pkbufWith (s : State) (v : Bool) : Byte := byteSetBit s.pkbuf (7 - s.pkbits.toNat) v

/-- PKBUF <- 0; PKBITS <- 0. -/
def State.emptyPacker (s : State) : State := { s with pkbuf := 0, pkbits := 0 }

/-- put(bit) of R151. -/
def State.put (s : State) (v : Bool) : State :=
  if s.pkbits = 7 then (s.pushOut (s.pkbufWith v)).emptyPacker
  else { s with pkbuf := s.pkbufWith v, pkbits := s.pkbits + 1 }

/-- put of each bit of a list, in order. -/
def State.putAll (s : State) (bits : List Bool) : State := bits.foldl State.put s

/-! ### The register window (10_state.md section 2, 20_memory.md) -/

/-- `rd <REG>` of R98: the HOST's defined read of a register (R62). -/
def HostAccess.rd (c : Config) (r : Reg) : HostAccess where
  op := .read
  addr := c.huffBase + r.offset
  bytes := 4
  allLanes := true

/-- `wr <REG>, v` of R98: the HOST's defined write of a register (R62). -/
def HostAccess.wr (c : Config) (r : Reg) (v : Word) : HostAccess where
  op := .write v
  addr := c.huffBase + r.offset
  bytes := 4
  allLanes := true

/-- Byte k of a register word on a byte-addressed bus, k = 0 to 3: "carries bits [8k+7:8k] of the
register" (R63). -/
def byteLane (w : Word) (k : Nat) : Byte := w.extractLsb' (8 * k) 8

/-- ID (R22): ASCII "HUFF". -/
def idWord : Word := 0x48554646

/-- CFG (R23): OFIFO_DEPTH, FREQW, SYMW from the top. -/
def Config.word (c : Config) : Word :=
  BitVec.ofNat 16 c.ofifoDepth ++ BitVec.ofNat 8 c.freqw ++ BitVec.ofNat 8 c.symw

/-- PK (R35): PKBITS in [10:8], PKBUF in [7:0]. -/
def State.pkWord (s : State) : Word := 0#21 ++ s.pkbits ++ s.pkbuf

/-- What a read of OUT returns (R33): VALID in bit 8 and the head byte, or 0. -/
def State.outWord (s : State) : Word :=
  match s.fifo with
  | [] => 0
  | b :: _ => 0#23 ++ 1#1 ++ b

/-- The value a HOST read of a register returns (10_state.md section 2). A read of CMD and of the
reserved offset returns 0 (R24, R46). -/
def State.readReg (s : State) : Reg → Word
  | .id => idWord
  | .cfg => Config.word s.cfg
  | .cmd => 0
  | .status => s.status
  | .res0 => s.res0
  | .res1 => s.res1
  | .res2 => s.res2
  | .res3 => s.res3
  | .out => s.outWord
  | .outlvl => BitVec.ofNat 32 s.outlvl
  | .pk => s.pkWord
  | .bytesout => s.bytesout
  | .nsym => BitVec.ofNat 32 s.nsym
  | .total => BitVec.ofNat 32 s.total
  | .sticky => s.sticky.setWidth 32
  | .reserved => 0

/-- The state after a HOST read: a read of OUT removes the head byte, "every other read has no side
effect" (R33, R66). -/
def State.afterRead (s : State) : Reg → State
  | .out => { s with fifo := s.fifo.tail }
  | .id | .cfg | .cmd | .status | .res0 | .res1 | .res2 | .res3
  | .outlvl | .pk | .bytesout | .nsym | .total | .sticky | .reserved => s

/-- A HOST write of `v` to CMD (R24): accepted into an empty PEND, else dropped, which sets
STICKY[0] and nothing else (R189). -/
def State.offer (s : State) (v : Word) : State :=
  match s.pend with
  | none => { s with pend := some v }
  | some _ => { s with sticky := stickySet s.sticky 0 }

/-- The state after a HOST write: CMD and STICKY take one, "every other write is ignored" (R66). -/
def State.afterWrite (s : State) (v : Word) : Reg → State
  | .cmd => s.offer v
  | .sticky => { s with sticky := stickyClear s.sticky v }
  | .id | .cfg | .status | .res0 | .res1 | .res2 | .res3 | .out
  | .outlvl | .pk | .bytesout | .nsym | .total | .reserved => s

/-- HUFFCORE's answer to an access that reaches it (R62): the bus error response, without side
effect, where the access is not defined. -/
def State.answer (s : State) (a : HostAccess) : Reply :=
  if a.isDefined s.cfg then
    match a.op with
    | .read => .data (s.readReg (Reg.ofAddress a.addr))
    | .write _ => .done
  else .busError

/-- The state after an access that reaches HUFFCORE, without the record of the answer. -/
def State.afterAccess (s : State) (a : HostAccess) : State :=
  if a.isDefined s.cfg then
    match a.op with
    | .read => s.afterRead (Reg.ofAddress a.addr)
    | .write v => s.afterWrite v (Reg.ofAddress a.addr)
  else s

/-- The word an answer carries back: "A read answered this way returns 0 where the bus carries data"
(R62). -/
def Reply.word : Reply → Word
  | .data w => w
  | .done => 0
  | .busError => 0

/-- A HOST step (R70): one access. One that does not reach HUFFCORE (R60) leaves it as it is; an
undefined one is a HOST fault (R62, R206, log entry 5). -/
def hostStep (a : HostAccess) (s : State) : Result :=
  if a.reaches s.cfg then
    match s.answer a with
    | .busError => .fault (.undefinedAccess a)
    | .data w => .next { s.afterAccess a with reply := some (.data w) }
    | .done => .next { s.afterAccess a with reply := some .done }
  else .next { s with reply := none }

/-- The reset input is asserted and released: every state element takes its reset value, a pending
command is discarded (R215). The turns to come stay. -/
def State.resetNow (s : State) : State := { State.resetWith s.cfg with turns := s.turns }

end Sys2Proof.Machine
end

