-- ==== Sys2Proof/Machine/BitPacker.lean ====
section
/-! DEFINITION. PUTBIT, CLOSE and OPEN (43_bit_packer.md); push_out and put stand in Ops.lean. -/

namespace Sys2Proof.Machine

/-- PUTBIT (R152): OFULL only for the bit that completes a byte. -/
def execPutbit (b : Bool) (s : State) : Result :=
  require (s.pkopen = true) .pkstate s <|
  require (¬ (s.pkbits = 7 ∧ s.FifoFull)) .ofull s <|
  finish (s.put b)

/-- CLOSE's flush (R153, log entry 16): a partial byte is pushed out and the packer emptied. -/
def State.flush (s : State) : State :=
  if s.pkbits = 0 then s else (s.pushOut s.pkbuf).emptyPacker

/-- CLOSE (R153). -/
def execCloseStream (s : State) : Result :=
  require (s.pkopen = true) .pkstate s <|
  require (¬ (s.pkbits ≠ 0 ∧ s.FifoFull)) .ofull s <|
  finish { s.flush with pkopen := false }

/-- OPEN (R154). The FIFO is not touched. -/
def execOpenStream (s : State) : Result :=
  require (s.pkopen = false) .pkstate s <|
  finish { s.emptyPacker with pkopen := true, bytesout := 0 }

end Sys2Proof.Machine
end

