-- ==== Sys2Proof/Machine/CodeResolver.lean ====
section
/-! DEFINITION. RESOLVE (42_code_resolver.md), and the search it shares with ENCODE. -/

namespace Sys2Proof.Machine

/-- dfs(i) of R142, left child before right, with fuel for a path of that many nodes. `none` is
NOTFOUND. -/
def lookupFrom (t : NodeStore) (sym : Symbol) : Nat → Nat → Except Fault (Option Bool)
  | 0, _ => .error .walkDoesNotEnd
  | fuel + 1, i =>
    match t.entry? i with
    | none => .error .nodeHasNoValue
    | some e =>
      match e.kind with
      | .leaf => .ok (if e.sym = sym then some e.bit else none)
      | .internal =>
        match lookupFrom t sym fuel e.left with
        | .error x => .error x
        | .ok (some b) => .ok (some b)
        | .ok none => lookupFrom t sym fuel e.right

/-- lookup(sym) = dfs(ROOT) of R142. A path through distinct valid entries has at most NNODES of
them. -/
def lookup (t : NodeStore) (sym : Symbol) : Except Fault (Option Bool) :=
  lookupFrom t sym (t.nnodes + 1) t.root

/-- RES0 of R140: [1] = FOUND, [0] = BIT, or 0. -/
def codeWord : Option Bool → Word
  | none => 0
  | some b => 0#30 ++ 1#1 ++ BitVec.ofBool b

/-- RESOLVE (R140). "Not found" is a result, not an error. -/
def execResolve (sym : Symbol) (s : State) : Result :=
  require (s.cfg.SymFits sym) .operand s <|
  withStore s fun t =>
  withValue (lookup t sym) fun r =>
  finish (s.setRes (codeWord r) 0 0 0)

end Sys2Proof.Machine
end

