-- ==== Sys2Proof/Machine/Control.lean ====
section
/-! DEFINITION. NOP and CLEAR (45_control.md). -/

namespace Sys2Proof.Machine

/-- NOP (R175): the bookkeeping alone. -/
def execNop (s : State) : Result := finish s

/-- CLEAR's state change (R176). STICKY and DONECNT are not reset. -/
def State.clearInput (s : State) : State :=
  { s with
    cnt := []
    nsym := 0
    total := 0
    phase := .counting
    pkopen := true
    pkbuf := 0
    pkbits := 0
    bytesout := 0
    fifo := []
    res0 := 0
    res1 := 0
    res2 := 0
    res3 := 0 }

/-- CLEAR (R176). -/
def execClear (s : State) : Result := finish s.clearInput

end Sys2Proof.Machine
end

