-- ==== Sys2Proof/Machine/Encoder.lean ====
section
/-! DEFINITION. ENCODE (44_encoder.md). -/

namespace Sys2Proof.Machine

/-- {7'b0, r}: the byte whose value is the resolved bit (R165). -/
def bitByte (r : Bool) : Byte := 0#7 ++ BitVec.ofBool r

/-- The bits of a byte for k = 7 down to 0 (R165). -/
def byteBits (b : Byte) : List Bool := [7, 6, 5, 4, 3, 2, 1, 0].map b.getLsbD

/-- ENCODE (R165). -/
def execEncode (sym : Symbol) (s : State) : Result :=
  require (s.cfg.SymFits sym) .operand s <|
  withStore s fun t =>
  require (s.pkopen = true) .pkstate s <|
  withValue (lookup t sym) fun r =>
  match r with
  | none => raise .notFound s
  | some b =>
    require (¬ s.FifoFull) .ofull s <|
    finish (s.putAll (byteBits (bitByte b)))

end Sys2Proof.Machine
end

