-- ==== Sys2Proof/Machine/FrequencyCounter.lean ====
section
/-! DEFINITION. COUNT and GETFREQ (40_frequency.md). -/

namespace Sys2Proof.Machine

/-- COUNT's state change (R110): CNT[sym], NSYM and TOTAL. `+` is exact (R10, log entry 8). -/
def State.countSymbol (s : State) (sym : Nat) : State :=
  { s with
    nsym := if s.cnt.read sym = 0 then s.nsym + 1 else s.nsym
    cnt := s.cnt.write sym (s.cnt.read sym + 1)
    total := s.total + 1 }

/-- COUNT (R110). -/
def execCount (sym : Symbol) (s : State) : Result :=
  require (s.cfg.SymFits sym) .operand s <|
  require (s.phase = .counting) .phase s <|
  require (s.total ≠ s.cfg.fmax) .overflow s <|
  finish (s.countSymbol sym.toNat)

/-- GETFREQ (R111). -/
def execGetfreq (sym : Symbol) (s : State) : Result :=
  require (s.cfg.SymFits sym) .operand s <|
  finish (s.setRes (BitVec.ofNat 32 (s.cnt.read sym.toNat)) 0 0 0)

end Sys2Proof.Machine
end

