-- ==== Sys2Proof/Machine/TreeBuilder.lean ====
section
/-! DEFINITION. BUILD, DEPTH and NODERD (41_tree_builder.md). -/

namespace Sys2Proof.Machine

/-! ### The build of R120 to R126 -/

/-- A new leaf (R121). -/
def Node.newLeaf (sym f : Nat) : Node where
  kind := .leaf
  sym := BitVec.ofNat 16 sym
  f := f
  bit := false
  left := 0
  right := 0

/-- A new parent of `c1` and `c2` (R124). -/
def Node.newParent (f c1 c2 : Nat) : Node where
  kind := .internal
  sym := 0
  f := f
  bit := false
  left := c1
  right := c2

/-- make_leaves of R121: for s = 0 to 2^SYMW − 1, a leaf where CNT[s] > 0. -/
def makeLeaves (c : Config) (t : FreqTable) : List Node :=
  (List.range c.nsymMax).filterMap fun s =>
    if 0 < t.read s then some (Node.newLeaf s (t.read s)) else none

/-- NODE[i].f of the store under construction. The builder reads it only at indices of its working
list, which are all below the length (`buildLoop_valid`), so the default is never read. -/
def freqAt (nodes : List Node) (i : Nat) : Nat :=
  match nodes[i]? with
  | some e => e.f
  | none => 0

/-- One step of R123's scan: `v` displaces candidate-1, else candidate-2, on strictly less. -/
def scanStep (nodes : List Node) (c : Nat × Nat) (v : Nat) : Nat × Nat :=
  if freqAt nodes v < freqAt nodes c.1 then (v, c.1)
  else if freqAt nodes v < freqAt nodes c.2 then (c.1, v)
  else c

/-- select(W) of R123; none where W has fewer than two elements. -/
def select (nodes : List Node) : List Nat → Option (Nat × Nat)
  | c1 :: c2 :: rest => some (rest.foldl (scanStep nodes) (c1, c2))
  | [_] => none
  | [] => none

/-- NODE[i].bit <- v. -/
def setNodeBit (nodes : List Node) (i : Nat) (v : Bool) : List Node :=
  nodes.modify i fun e => { e with bit := v }

/-- merge(c1, c2, next) of R124; `next` is the number of entries made so far. -/
def merge (nodes : List Node) (c1 c2 : Nat) : List Node :=
  setNodeBit (setNodeBit nodes c1 false) c2 true ++
    [Node.newParent (freqAt nodes c1 + freqAt nodes c2) c1 c2]

/-- `remove(W, c1, c2) ++ [next]` of R125. -/
def nextWork (work : List Nat) (c1 c2 next : Nat) : List Nat :=
  work.filter (fun i => i != c1 && i != c2) ++ [next]

/-- The loop of R120, at most `fuel` times. It shortens W by one each time (R125), so |W| is fuel
enough to leave one element. -/
def buildLoop : Nat → List Node → List Nat → List Node × List Nat
  | 0, nodes, work => (nodes, work)
  | fuel + 1, nodes, work =>
    match select nodes work with
    | none => (nodes, work)
    | some (c1, c2) => buildLoop fuel (merge nodes c1 c2) (nextWork work c1 c2 nodes.length)

/-- The whole build from CNT (R121 to R126): the node store, or none where W is empty, so that
`ROOT <- W[0]` has no value. -/
def buildStore (c : Config) (t : FreqTable) : Option NodeStore :=
  let leaves := makeLeaves c t
  let (nodes, work) := buildLoop leaves.length leaves (List.range leaves.length)
  match work with
  | [] => none
  | root :: _ => some { nodes := nodes, nnodes := nodes.length, root := root }

/-- BUILD (R120). -/
def execBuild (s : State) : Result :=
  require (s.phase = .counting) .phase s <|
  require (s.nsym ≠ 0) .empty s <|
  match buildStore s.cfg s.cnt with
  | none => .fault .nodeHasNoValue
  | some t =>
    finish ({ s with phase := .built t }.setRes (BitVec.ofNat 32 t.root)
      (BitVec.ofNat 32 (makeLeaves s.cfg s.cnt).length) (BitVec.ofNat 32 t.nnodes) 0)

/-! ### Tree read-back -/

/-- depth(i) of R130, with fuel for a path of that many nodes. -/
def depthFrom (t : NodeStore) : Nat → Nat → Except Fault Nat
  | 0, _ => .error .walkDoesNotEnd
  | fuel + 1, i =>
    match t.entry? i with
    | none => .error .nodeHasNoValue
    | some e =>
      match e.kind with
      | .leaf => .ok 1
      | .internal =>
        match depthFrom t fuel e.left, depthFrom t fuel e.right with
        | .error x, _ => .error x
        | .ok _, .error x => .error x
        | .ok l, .ok r => .ok (1 + max l r)

/-- depth(ROOT). A path through distinct valid entries has at most NNODES of them. -/
def treeDepth (t : NodeStore) : Except Fault Nat := depthFrom t (t.nnodes + 1) t.root

/-- DEPTH (R130). -/
def execDepth (s : State) : Result :=
  withStore s fun t =>
  withValue (treeDepth t) fun d =>
  finish (s.setRes (BitVec.ofNat 32 d) 0 0 0)

/-- The kind bit of R42. -/
def NodeKind.bit : NodeKind → BitVec 1
  | .leaf => 0
  | .internal => 1

/-- RES1 of R131: [17] = bit, [16] = kind, [15:0] = sym. -/
def Node.word (e : Node) : Word := 0#14 ++ BitVec.ofBool e.bit ++ e.kind.bit ++ e.sym

/-- The read of NODE[idx] of R131. -/
def readEntry (t : NodeStore) (i : Nat) : Except Fault Node :=
  match t.entry? i with
  | none => .error .nodeHasNoValue
  | some e => .ok e

/-- NODERD (R131). -/
def execNoderd (idx : BitVec 17) (s : State) : Result :=
  withStore s fun t =>
  require (idx.toNat < t.nnodes) .range s <|
  withValue (readEntry t idx.toNat) fun e =>
  finish (s.setRes (BitVec.ofNat 32 e.f) e.word (BitVec.ofNat 32 e.left) (BitVec.ofNat 32 e.right))

end Sys2Proof.Machine
end

