-- ==== Sys2Proof/Machine/Dispatch.lean ====
section
/-! DEFINITION. The completion of a decoded command: one arm per constructor of Instr (R92). -/

namespace Sys2Proof.Machine

/-- "The completion of Cmd runs the command's rule" (R96), in every state (log entry 17). -/
def exec (i : Instr) (s : State) : Host.Outcome State Fault Refusal :=
  match i with
  | .nop => Sys2Proof.Machine.execNop s
  | .clear => Sys2Proof.Machine.execClear s
  | .count sym => Sys2Proof.Machine.execCount sym s
  | .build => Sys2Proof.Machine.execBuild s
  | .resolve sym => Sys2Proof.Machine.execResolve sym s
  | .encode sym => Sys2Proof.Machine.execEncode sym s
  | .putbit b => Sys2Proof.Machine.execPutbit b s
  | .closeStream => Sys2Proof.Machine.execCloseStream s
  | .openStream => Sys2Proof.Machine.execOpenStream s
  | .getfreq sym => Sys2Proof.Machine.execGetfreq sym s
  | .depth => Sys2Proof.Machine.execDepth s
  | .noderd idx => Sys2Proof.Machine.execNoderd idx s

end Sys2Proof.Machine
end

