-- ==== Sys2Proof/Machine/Completion.lean ====
section
/-! DEFINITION. A CORE step (R70): the completion of the word in PEND, whatever it decodes to (R93,
R96). -/

namespace Sys2Proof.Machine

/-- The completion of command word `w` (R96): OPCODE, OPERAND, or the command's rule. -/
def completeWord (w : Word) (s : State) : Result :=
  match decode s.cfg w with
  | .cmd i => exec i s
  | .badOperand _ => raise .operand s
  | .unassigned => raise .opcode s

/-- A CORE step. "The CORE can take a step only when PEND is not empty" (R70); with PEND empty
HUFFCORE is idle and all state is kept (R205, log entry 3). -/
def coreStep (s : State) : Result :=
  match s.pend with
  | none => .next s
  | some w => completeWord w s

/-- `s` with command word `w` pending and the CORE's turn next. -/
def State.withPending (s : State) (w : Word) : State :=
  { s with pend := some w, turns := .core :: s.turns }

end Sys2Proof.Machine
end

