-- ==== Sys2Proof/Machine/Turns.lean ====
section
/-! DEFINITION. Whose step is next in the interleaving of R70, and what is left of the turns to come
after it (log entries 2 and 3). -/

namespace Sys2Proof.Machine

/-- The CORE's completion comes next inside this HOST loop. -/
def State.coreDue (s : State) (l : HostLoop) : Bool := s.busy && l.polls == 0

/-- Who takes the next step. With no turn left it is the CORE's: R70's weak fairness (log entry 3). -/
def State.act (s : State) : Act :=
  match s.turns with
  | [] => .core
  | .host a :: _ => .host a
  | .core :: _ => .core
  | .reset :: _ => .reset
  | .loop l :: _ => if s.coreDue l then .core else .host (.rd s.cfg l.reg)

/-- The word that the loop's next read returns ends the loop. -/
def State.loopEnds (s : State) (l : HostLoop) : Bool :=
  (s.answer (.rd s.cfg l.reg)).word.getLsbD l.bit == l.stop

/-- A loop after a read that did not end it. -/
def HostLoop.polled (l : HostLoop) (busy : Bool) : HostLoop :=
  if busy then { l with polls := l.polls - 1 } else l

/-- The turns left after the next step. A loop stays until a read ends it. -/
def State.turnsAfter (s : State) : List Turn :=
  match s.turns with
  | [] => []
  | .host _ :: rest => rest
  | .core :: rest => rest
  | .reset :: rest => rest
  | .loop l :: rest =>
    if s.coreDue l then .loop l :: rest
    else if s.loopEnds l then rest
    else .loop (l.polled s.busy) :: rest

/-- `s` when its next turn has been taken, before the step's effect. -/
def State.turnTaken (s : State) : State := { s with turns := s.turnsAfter }

end Sys2Proof.Machine
end

