-- ==== Sys2Proof/Machine/Step.lean ====
section
/-! DEFINITION. One step of the interleaving of R70, and how a command word is put where the next step
runs it. -/

namespace Sys2Proof.Machine

/-- One step: the CORE's completion, an access of the HOST's, or a reset, as the turns to come say
(log entries 2 and 3). -/
def step (s : State) : Host.Outcome State Fault Refusal :=
  match s.act with
  | .core => coreStep s.turnTaken
  | .host a => hostStep a s.turnTaken
  | .reset => .next s.turnTaken.resetNow

/-- `s` with the command word `w` (its bits above `nbits` 0) accepted into PEND and its completion the
very next step (log entry 4). -/
def State.withFetchWord (s : State) (nbits w : Nat) : State :=
  s.withPending (BitVec.ofNat 32 (w % 2 ^ nbits))

end Sys2Proof.Machine
end

