-- ==== Sys2Proof/Machine/HostProgram.lean ====
section
/-! DEFINITION. The statements and pseudo-commands the spec writes HOST programs in (R98, R99), as the
turns they make. `rd` and `wr` are `HostAccess.rd` and `HostAccess.wr`. Every command has a latency of
its own (R8, R70): `polls` is how many reads of its `wait` come before its completion, and a sequence
of commands takes one such number for each, by position (log entry 18). -/

namespace Sys2Proof.Machine

/-- `<MNEMONIC> <operand>` and `.word w` of R98: one write of the word to CMD. -/
def HostAccess.command (c : Config) (w : Word) : HostAccess := .wr c .cmd w

/-- `wait` of R99: `loop: rd STATUS -> s; if s[0] = 1 goto loop`. -/
def wait (polls : Nat) : Turn := .loop { reg := .status, bit := 0, stop := false, polls := polls }

/-- `do <cmd>` of R99: `<cmd>` then `wait`. -/
def doCommand (c : Config) (polls : Nat) (w : Word) : List Turn :=
  [.host (.command c w), wait polls]

/-- `drain` of R99: `loop: rd OUT -> v; if v[8] = 1 goto loop`. -/
def drain (polls : Nat) : Turn := .loop { reg := .out, bit := 8, stop := false, polls := polls }

/-- The HOST "that waits on OUT VALID = 1" (R206). -/
def awaitByte (polls : Nat) : Turn := .loop { reg := .out, bit := 8, stop := true, polls := polls }

/-- `counts` of R99; `polls k` is for the k-th character. -/
def counts (c : Config) (polls : Nat → Nat) : List Symbol → List Turn
  | [] => []
  | sym :: rest =>
    doCommand c (polls 0) (encode (.count sym)) ++ counts c (fun k => polls (k + 1)) rest

/-- An ENCODE of `sym` emits a byte where the FIFO has room (R165): the checks before OFULL pass. -/
def State.emits (s : State) (sym : Symbol) : Bool :=
  match s.phase with
  | .counting => false
  | .built t =>
    decide (s.cfg.SymFits sym) && s.pkopen &&
      match lookup t sym with
      | .ok (some _) => true
      | .ok none => false
      | .error _ => false

/-- `encodes` of R99, from a state with no command pending and `level` bytes in the FIFO, in which
ENCODE of the symbols that `emits` holds of emits a byte (`State.emits`; no ENCODE or `drain` changes
it): a `drain` first whenever OUTLVL would reach OFIFO_DEPTH. -/
def encodes (c : Config) (emits : Symbol → Bool) (polls : Nat → Nat) :
    Nat → List Symbol → List Turn
  | _, [] => []
  | level, sym :: rest =>
    let here := doCommand c (polls 0) (encode (.encode sym))
    let after := fun k => polls (k + 1)
    if emits sym then
      if c.ofifoDepth ≤ level + 1 then drain 0 :: here ++ encodes c emits after 1 rest
      else here ++ encodes c emits after (level + 1) rest
    else here ++ encodes c emits after level rest

/-- `dump` of R99: a GETFREQ and a read of RES0 for every symbol, in ascending order; `polls s` is for
symbol s. -/
def dump (c : Config) (polls : Nat → Nat) : List Turn :=
  (List.range c.nsymMax).flatMap fun sym =>
    doCommand c (polls sym) (encode (.getfreq (BitVec.ofNat 16 sym))) ++ [.host (.rd c .res0)]

/-- The reference flow of R169; `polls k` is for the k-th command, CLEAR first. Every character has a
leaf by then, so every ENCODE emits a byte. -/
def referenceFlow (c : Config) (polls : Nat → Nat) (text : List Symbol) : List Turn :=
  let n := text.length
  doCommand c (polls 0) (encode .clear) ++
  counts c (fun k => polls (1 + k)) text ++
  doCommand c (polls (1 + n)) (encode .build) ++
  encodes c (fun _ => true) (fun k => polls (2 + n + k)) 0 text ++
  doCommand c (polls (2 + 2 * n)) (encode .closeStream) ++
  [drain 0]

end Sys2Proof.Machine
end

