-- ==== Sys2Proof/Safety.lean ====
section
/-! DEFINITION. The terms claims are stated in: the invariant of R48 with the widths of R9 and R44, the
check lists of R187, the depth and the direct code of R130 and R142, and which turn is next. -/

namespace Sys2Proof.Machine

/-! ### The invariant (10_state.md section 4) -/

/-- The children that the entries from index `n` on name, in order. -/
def NodeStore.children (t : NodeStore) (n : Nat) : List Nat :=
  (t.nodes.drop n).flatMap fun e => [e.left, e.right]

/-- R48 (c): an INTERNAL entry at `i` has its children below it and the sum of their frequencies; its
symbol is 0 (R42). -/
abbrev NodeStore.InternalAt (t : NodeStore) (i : Nat) : Prop :=
  ∀ e ∈ t.nodes[i]?, e.kind = .internal ∧ e.sym = 0 ∧ e.left < i ∧ e.right < i ∧
    e.f = freqAt t.nodes e.left + freqAt t.nodes e.right

/-- What R48 (c) says of the entries 0 to NSYM − 1: LEAF entries, one per table entry, in ascending
order of sym, with the count as frequency and without children (R42, R121). -/
abbrev NodeStore.LeavesOf (t : NodeStore) (cnt : FreqTable) : Prop :=
  (t.nodes.take cnt.length).map (fun e => (e.kind, e.sym, e.f, e.left, e.right)) =
    cnt.map (fun p => (NodeKind.leaf, BitVec.ofNat 16 p.1, p.2, 0, 0))

/-- R48 (c) and (d): the node store of a frequency table. -/
structure NodeStore.Inv (cnt : FreqTable) (t : NodeStore) : Prop where
  /-- A tree has a leaf: BUILD of an empty table raises EMPTY (R128). -/
  nonempty : cnt ≠ []
  nnodes_eq : t.nnodes = t.nodes.length
  nnodes_count : t.nnodes = 2 * cnt.length - 1
  root_eq : t.root = t.nnodes - 1
  leaves : t.LeavesOf cnt
  internals : ∀ i < t.nnodes, cnt.length ≤ i → t.InternalAt i
  /-- Every index other than ROOT is named as a child exactly once. -/
  owned : (t.children cnt.length).Perm (List.range t.root)
  root_total : freqAt t.nodes t.root = cnt.sum

/-- The children of the internal entries have the bits their merge gave them (R124), and the root,
which no merge took, has the default 0 (R126). -/
def NodeStore.Marked (n : Nat) (t : NodeStore) : Prop :=
  (∀ i < t.nnodes, n ≤ i → ∀ e ∈ t.nodes[i]?,
    (∀ l ∈ t.nodes[e.left]?, l.bit = false) ∧ (∀ r ∈ t.nodes[e.right]?, r.bit = true)) ∧
  ∀ e ∈ t.nodes[t.root]?, e.bit = false

/-- R48 (e) with R44: the bits PKBUF[7−PKBITS:0] are 0. -/
abbrev State.PackerInv (s : State) : Prop := s.pkbuf &&& (0xFF#8 >>> s.pkbits.toNat) = 0

/-- R48, with the bounds of R5 to R7 on the configuration and the canonical form of CNT. -/
structure State.Inv (s : State) : Prop where
  legal : s.cfg.Legal
  table : s.cnt.Wf
  alphabet : ∀ p ∈ s.cnt, p.1 < s.cfg.nsymMax
  nsym_eq : s.nsym = s.cnt.length
  total_eq : s.total = s.cnt.sum
  total_le : s.total ≤ s.cfg.fmax
  store : ∀ t, s.phase = .built t → t.Inv s.cnt
  packer : s.PackerInv
  fifo_le : s.outlvl ≤ s.cfg.ofifoDepth

/-! ### The check lists of R187 -/

/-- The first check of the command's list in R187 that fails, or noError. -/
def firstError (i : Instr) (s : State) : ErrCode :=
  if ¬ i.WellFormed s.cfg then .operand
  else match i with
    | .nop | .clear | .getfreq _ => .noError
    | .count _ =>
      if s.phase.isBuilt then .phase else if s.total = s.cfg.fmax then .overflow else .noError
    | .build =>
      if s.phase.isBuilt then .phase else if s.nsym = 0 then .empty else .noError
    | .resolve _ | .depth => if s.phase.isBuilt then .noError else .phase
    | .noderd idx =>
      match s.phase with
      | .counting => .phase
      | .built t => if t.nnodes ≤ idx.toNat then .range else .noError
    | .encode sym =>
      match s.phase with
      | .counting => .phase
      | .built t =>
        if s.pkopen = false then .pkstate
        else match lookup t sym with
          | .error _ => .noError
          | .ok none => .notFound
          | .ok (some _) => if s.FifoFull then .ofull else .noError
    | .putbit _ =>
      if s.pkopen = false then .pkstate
      else if s.pkbits = 7 ∧ s.FifoFull then .ofull else .noError
    | .closeStream =>
      if s.pkopen = false then .pkstate
      else if s.pkbits ≠ 0 ∧ s.FifoFull then .ofull else .noError
    | .openStream => if s.pkopen then .pkstate else .noError

/-! ### The merges of a BUILD (R122 to R126) -/

/-- The store is the one R120's loop makes of `n` leaves: with W the working list before each merge,
starting as [0, …, n − 1] (R122), entry n + k has as children the pair select(W) (R123, R124), W loses
them and gains n + k at its tail (R125), and after n − 1 merges W is [ROOT] (R126). `select` compares
frequencies only, which no merge changes once an entry is made. -/
def NodeStore.MergedFrom (n : Nat) (t : NodeStore) : Prop :=
  ∃ work : Nat → List Nat, work 0 = List.range n ∧ work (n - 1) = [t.root] ∧
    ∀ k < n - 1, ∃ e, t.nodes[n + k]? = some e ∧
      select t.nodes (work k) = some (e.left, e.right) ∧
      work (k + 1) = (work k).filter (fun i => i != e.left && i != e.right) ++ [n + k]

/-! ### How a command ends (R186, R188) -/

/-- `s` after a completion without error that changes nothing else: R186 with code NONE. -/
def State.succeeded (s : State) : State :=
  { s with err := .noError, pend := none, donecnt := s.donecnt + 1 }

/-- `s` after a completion that raised `e`: R186's steps and, as R188 has it, nothing else. -/
def State.failedWith (s : State) (e : ErrCode) : State :=
  { s with
    err := e
    sticky := s.sticky ||| BitVec.twoPow 10 e.code.toNat
    pend := none
    donecnt := s.donecnt + 1 }

/-! ### Depth and code of a tree, as relations on the store -/

/-- R130's `depth(i) = d`. -/
inductive NodeStore.IsDepth (t : NodeStore) : Nat → Nat → Prop where
  | leaf {i : Nat} {e : Node} (he : t.entry? i = some e) (hk : e.kind = .leaf) :
      NodeStore.IsDepth t i 1
  | internal {i l r : Nat} {e : Node} (he : t.entry? i = some e) (hk : e.kind = .internal)
      (hl : NodeStore.IsDepth t e.left l) (hr : NodeStore.IsDepth t e.right r) :
      NodeStore.IsDepth t i (1 + max l r)

/-- The direct rule of R142: "if some leaf index j < NSYM has NODE[j].sym = sym, return NODE[j].bit,
otherwise NOTFOUND". -/
def NodeStore.directCode (t : NodeStore) (nsym : Nat) (sym : Symbol) : Option Bool :=
  ((t.nodes.take nsym).find? fun e => e.sym == sym).map Node.bit

/-! ### Turns -/

/-- The next step is the CORE's. -/
abbrev State.CoreNext (s : State) : Prop := s.act = .core

/-- The next step is this access of the HOST's, on its own or inside a loop. -/
abbrev State.HostNext (s : State) (a : HostAccess) : Prop := s.act = .host a

/-- The next step is a reset. -/
abbrev State.ResetNext (s : State) : Prop := s.act = .reset

/-- The next step completes command `i`. -/
def State.Completes (s : State) (i : Instr) : Prop :=
  s.CoreNext ∧ ∃ w, s.pend = some w ∧ decode s.cfg w = .cmd i

/-- The access is one R62 defines, or one that does not reach HUFFCORE (R60). A loop makes defined
reads. -/
def Turn.Admitted (c : Config) : Turn → Prop
  | .host a => a.reaches c = true → a.isDefined c = true
  | .loop _ => True
  | .core => True
  | .reset => True

/-- The steps a turn can take while a command is pending. -/
def Turn.patience : Turn → Nat
  | .loop l => l.polls + 1
  | .host _ => 1
  | .core => 1
  | .reset => 1

/-- The turn is one step, whatever the state. -/
def Turn.single : Turn → Bool
  | .loop _ => false
  | .host _ => true
  | .core => true
  | .reset => true

/-- The completions of a sequence of commands, one after the other (R71). -/
def execList : List Instr → State → Result
  | [], s => .next s
  | i :: rest, s =>
    match exec i s with
    | .next t => execList rest t
    | .fault f => .fault f
    | .refused r => .refused r

end Sys2Proof.Machine
end

