-- ==== Sys2Proof/Certificates/Slice0/Obligations.lean ====
section
/-! DEFINITION. The statements about HUFFCORE for the provers. Each quotes or cites the rules of spec/
it rests on in OBLIGATIONS.json. `step s = .next t` is about one turn (R70); `exec i s = .next t` is
about the completion of command `i`. -/

open Sys2Proof Sys2Proof.Machine

/-! ### Encoding (30_encoding.md) -/

/-- R96 and R90: the decoder reads from the word of a well-formed command that command. -/
def Obligations.EncodedCommandsDecodeBack : Prop :=
  ∀ (c : Config) (i : Instr), i.WellFormed c → decode c (encode i) = .cmd i

/-- R91, R95: a word that decodes to a command is that command's word, and the operand passed its
check. -/
def Obligations.DecodedWordsEncodeBack : Prop :=
  ∀ (c : Config) (w : Word) (i : Instr), c.Legal → decode c w = .cmd i →
    i.WellFormed c ∧ encode i = w

/-- R92, R93: exactly the words with OPC 0x0C to 0xFF are unassigned. -/
def Obligations.UnassignedWordsAreTheHighOpcodes : Prop :=
  ∀ (c : Config) (w : Word), decode c w = .unassigned ↔ 0x0C ≤ w.toNat / 2 ^ 24

/-- R91, R92: the words with an assigned opcode and a bad operand are exactly those of a NONE row with
OPND ≠ 0, of a SYM row with OPND at least 2^SYMW, of PUTBIT with OPND at least 2, and of NODERD with
OPND at least 2^17. -/
def Obligations.BadOperandWordsBreakTheirCheck : Prop :=
  ∀ (c : Config) (w : Word), c.Legal →
    ((∃ op, decode c w = .badOperand op) ↔
      (w.toNat / 2 ^ 24 ∈ [0x00, 0x01, 0x03, 0x07, 0x08, 0x0A] ∧ w.toNat % 2 ^ 24 ≠ 0) ∨
      (w.toNat / 2 ^ 24 ∈ [0x02, 0x04, 0x05, 0x09] ∧ 2 ^ c.symw ≤ w.toNat % 2 ^ 24) ∨
      (w.toNat / 2 ^ 24 = 0x06 ∧ 2 ≤ w.toNat % 2 ^ 24) ∨
      (w.toNat / 2 ^ 24 = 0x0B ∧ 2 ^ 17 ≤ w.toNat % 2 ^ 24))

/-- R92: a word written out from each of the table's twelve rows decodes to its command. -/
def Obligations.WordsOfTheTableDecode : Prop :=
  decode Config.reference 0b00000000000000000000000000000000#32 = .cmd .nop ∧
  decode Config.reference 0b00000001000000000000000000000000#32 = .cmd .clear ∧
  decode Config.reference 0b00000010000000000000000001100001#32 = .cmd (.count 0x61) ∧
  decode Config.reference 0b00000011000000000000000000000000#32 = .cmd .build ∧
  decode Config.reference 0b00000100000000000000000010110001#32 = .cmd (.resolve 0xB1) ∧
  decode Config.reference 0b00000101000000000000000011111111#32 = .cmd (.encode 0xFF) ∧
  decode Config.reference 0b00000110000000000000000000000001#32 = .cmd (.putbit true) ∧
  decode Config.reference 0b00000111000000000000000000000000#32 = .cmd .closeStream ∧
  decode Config.reference 0b00001000000000000000000000000000#32 = .cmd .openStream ∧
  decode Config.reference 0b00001001000000000000000001111010#32 = .cmd (.getfreq 0x7A) ∧
  decode Config.reference 0b00001010000000000000000000000000#32 = .cmd .depth ∧
  decode Config.reference 0b00001011000000010000000000000011#32 = .cmd (.noderd 0x10003)

/-! ### The CORE's turn (20_memory.md section 5) -/

/-- R70, R96: the CORE's turn completes the command that PEND decodes to. -/
def Obligations.CoreTurnRunsTheDecodedCommand : Prop :=
  ∀ (s : State) (w : Word) (i : Instr), s.CoreNext → s.pend = some w → decode s.cfg w = .cmd i →
    step s = exec i s.turnTaken

/-- The step after `withFetchWord` runs the command whose word was put there (the model's interface,
log entry 4). -/
def Obligations.FetchedWordRunsNext : Prop :=
  ∀ (s : State) (i : Instr), i.WellFormed s.cfg →
    step (s.withFetchWord 32 (encode i).toNat) = exec i { s with pend := some (encode i) }

/-- R93: a word with an unassigned OPC is accepted into an empty PEND, and its completion sets ERR to
OPCODE, STICKY bit 1, and DONECNT, empties PEND and changes nothing else. -/
def Obligations.UnassignedWordsRaiseOpcode : Prop :=
  ∀ (s : State) (w : Word), 0x0C ≤ w.toNat / 2 ^ 24 →
    (s.pend = none → s.offer w = { s with pend := some w }) ∧
    (s.CoreNext → s.pend = some w →
      step s = .next { s.turnTaken with
        err := .opcode
        sticky := s.sticky ||| 0b10#10
        pend := none
        donecnt := s.donecnt + 1 })

/-- R91, R92: the completion of a word with a bad operand sets ERR to OPERAND, STICKY bit 2 and
DONECNT, empties PEND and changes nothing else. -/
def Obligations.BadOperandWordsRaiseOperand : Prop :=
  ∀ (s : State) (w : Word) (op : Opcode), decode s.cfg w = .badOperand op → s.CoreNext →
    s.pend = some w →
    step s = .next { s.turnTaken with
      err := .operand
      sticky := s.sticky ||| 0b100#10
      pend := none
      donecnt := s.donecnt + 1 }

/-- R205: with no command pending, the CORE's turn, and the step where no turn is left, keep all state
(that this is a step at all is the model's choice, log entry 3). -/
def Obligations.IdleCoreKeepsTheState : Prop :=
  ∀ s : State, s.CoreNext → s.pend = none → step s = .next s.turnTaken

/-! ### Completion and errors (60_exceptions.md) -/

/-- R186, R188: every completion empties PEND, counts in DONECNT and sets the STICKY bit of its code;
one with an error changes nothing else but ERR. -/
def Obligations.EveryCompletionKeepsTheBooks : Prop :=
  ∀ (s t : State) (w : Word), completeWord w s = .next t →
    t.pend = none ∧ t.busy = false ∧ t.donecnt = s.donecnt + 1 ∧
    t.sticky = (if t.err = .noError then s.sticky
      else s.sticky ||| BitVec.twoPow 10 t.err.code.toNat) ∧
    (t.err ≠ .noError → t = s.failedWith t.err)

/-- R187: a completion raises the first check of its list that fails; where none fails, in a state
that meets the invariant of R48, the command completes without error. -/
def Obligations.TheFirstFailedCheckIsRaised : Prop :=
  ∀ (s : State) (w : Word),
    (decode s.cfg w = .unassigned → completeWord w s = .next (s.failedWith .opcode)) ∧
    (∀ op, decode s.cfg w = .badOperand op → completeWord w s = .next (s.failedWith .operand)) ∧
    (∀ i, decode s.cfg w = .cmd i → firstError i s ≠ .noError →
      completeWord w s = .next (s.failedWith (firstError i s))) ∧
    (∀ i, decode s.cfg w = .cmd i → firstError i s = .noError → s.Inv →
      ∃ t, completeWord w s = .next t ∧ t.err = .noError)

/-- R187 for a command run with an operand outside the alphabet, which no decoded word has: OPERAND,
before any other check (the model's second check, log entry 7). -/
def Obligations.SymbolsOutsideTheAlphabetRaiseOperand : Prop :=
  ∀ (s : State) (sym : Symbol), ¬ s.cfg.SymFits sym →
    ∀ i ∈ [Instr.count sym, .resolve sym, .encode sym, .getfreq sym],
      exec i s = .next (s.failedWith .operand)

/-- R31: DONECNT counts completions, of either kind, and nothing else. -/
def Obligations.DonecntCountsCompletions : Prop :=
  ∀ s t : State, step s = .next t →
    t.donecnt = if s.ResetNext then 0
      else if s.CoreNext ∧ s.pend.isSome then s.donecnt + 1 else s.donecnt

/-- R191, R39: a STICKY bit that is set stays set until the HOST writes 1 to it or reset. -/
def Obligations.StickyBitsStayUntilCleared : Prop :=
  ∀ (s t : State) (k : Nat), step s = .next t → s.sticky.getLsbD k = true →
    t.sticky.getLsbD k = true ∨ s.ResetNext ∨
      ∃ a v, s.HostNext a ∧ a.op = .write v ∧ Reg.ofAddress a.addr = .sticky ∧ v.getLsbD k = true

/-! ### Control commands (45_control.md) -/

/-- R175: NOP completes in every state with the bookkeeping alone. -/
def Obligations.NopOnlyKeepsTheBooks : Prop :=
  ∀ s : State, exec .nop s = .next s.succeeded

/-- R176: CLEAR completes in every state, and "the state equals the reset state of R50 except in
STICKY and DONECNT" (and the HOST's turns and latest answer, which are not HUFFCORE's). -/
def Obligations.ClearReachesTheResetState : Prop :=
  ∀ s : State, exec .clear s = .next { State.resetWith s.cfg with
    sticky := s.sticky
    donecnt := s.donecnt + 1
    turns := s.turns
    reply := s.reply }

/-! ### Frequency counter (40_frequency.md) -/

/-- R110: a COUNT whose checks pass completes; it adds 1 to CNT[sym] and to TOTAL, and 1 to NSYM for a
symbol not in the table; every other count and every other state element stays. -/
def Obligations.CountAddsOneToItsSymbol : Prop :=
  ∀ (s : State) (sym : Symbol), s.cfg.SymFits sym → s.phase = .counting →
    s.total ≠ s.cfg.fmax →
    ∃ t, exec (.count sym) s = .next t ∧
      t.cnt.read sym.toNat = s.cnt.read sym.toNat + 1 ∧
      (∀ x, x ≠ sym.toNat → t.cnt.read x = s.cnt.read x) ∧
      t = { s.succeeded with
        cnt := t.cnt
        nsym := if s.cnt.read sym.toNat = 0 then s.nsym + 1 else s.nsym
        total := s.total + 1 }

/-- R110, R99 (`counts`): counting the characters of a text from an empty table gives each symbol its
number of occurrences, NSYM the number of different symbols, and TOTAL the text's length. -/
def Obligations.CountingATextTabulatesIt : Prop :=
  ∀ (s : State) (text : List Symbol), s.phase = .counting → s.cnt = [] → s.nsym = 0 →
    s.total = 0 → (∀ c ∈ text, s.cfg.SymFits c) → text.length ≤ s.cfg.fmax →
    ∃ t, execList (text.map Instr.count) s = .next t ∧ t.cnt.Wf ∧
      (∀ c : Symbol, t.cnt.read c.toNat = text.count c) ∧
      t.nsym = text.dedup.length ∧ t.total = text.length ∧ t.phase = .counting

/-- R111: a GETFREQ whose operand check passes completes, in either phase, with CNT[sym] in RES0 and 0
in RES1 to RES3; nothing else changes. In a state that meets the invariant RES0 is the count
itself. -/
def Obligations.GetfreqReadsTheCount : Prop :=
  ∀ (s : State) (sym : Symbol), s.cfg.SymFits sym →
    ∃ t, exec (.getfreq sym) s = .next t ∧
      t.res0.toNat = s.cnt.read sym.toNat % 2 ^ 32 ∧
      (s.Inv → t.res0.toNat = s.cnt.read sym.toNat) ∧
      t = { s.succeeded with res0 := t.res0, res1 := 0, res2 := 0, res3 := 0 }

/-- R113: in a state that meets the invariant no count and no node frequency passes FMAX. -/
def Obligations.FrequenciesFitTheirWidth : Prop :=
  ∀ s : State, s.Inv →
    (∀ x, s.cnt.read x ≤ s.cfg.fmax) ∧
    ∀ t, s.phase = .built t → ∀ e ∈ t.nodes, e.f ≤ s.cfg.fmax

/-- R37, R38, R41: only COUNT, CLEAR and reset change CNT, NSYM and TOTAL. -/
def Obligations.OnlyCountClearResetWriteTheTable : Prop :=
  ∀ s t : State, step s = .next t →
    (t.cnt = s.cnt ∧ t.nsym = s.nsym ∧ t.total = s.total) ∨
    (∃ sym, s.Completes (.count sym) ∧ t.err = .noError) ∨ s.Completes .clear ∨ s.ResetNext

/-! ### Tree builder (41_tree_builder.md) -/

/-- R120 to R126, R129: in a state that meets the invariant, in COUNTING, with NSYM ≠ 0, BUILD
completes. It makes the node store of the table: leaves in ascending symbol order, each internal
entry with the sum of its children below it, every index but ROOT a child once, left children with
bit 0 and right children with bit 1, the root with bit 0. Entry n + k has as children the pair that
the scan selects from the working list before the k-th merge: the list starts as the leaves in order,
and each merge takes the pair out and appends the new entry at the tail. ROOT = 2n − 2 and NNODES = 2n − 1 stand
in RES0 and RES2, n in RES1; nothing else changes. -/
def Obligations.BuildMakesTheTreeOfTheTable : Prop :=
  ∀ s : State, s.Inv → s.phase = .counting → s.nsym ≠ 0 →
    ∃ st t, exec .build s = .next t ∧ st.Inv s.cnt ∧ st.Marked s.nsym ∧ st.MergedFrom s.nsym ∧
      t = { s.succeeded with
        phase := .built st
        res0 := BitVec.ofNat 32 (2 * s.nsym - 2)
        res1 := BitVec.ofNat 32 s.nsym
        res2 := BitVec.ofNat 32 (2 * s.nsym - 1)
        res3 := 0 }

/-- R127: with one entry in the table BUILD makes the one leaf, with bit 0, and merges nothing. -/
def Obligations.BuildOfOneSymbolMakesOneLeaf : Prop :=
  ∀ (s : State) (k n : Nat), s.Inv → s.phase = .counting → s.cnt = [(k, n)] →
    exec .build s = .next { s.succeeded with
      phase := .built
        { nodes := [⟨.leaf, BitVec.ofNat 16 k, n, false, 0, 0⟩], nnodes := 1, root := 0 }
      res0 := 0
      res1 := 1
      res2 := 1
      res3 := 0 }

/-- R128: with NSYM = 0 BUILD raises EMPTY and builds nothing. -/
def Obligations.BuildOfAnEmptyTableRaisesEmpty : Prop :=
  ∀ s : State, s.phase = .counting → s.nsym = 0 → exec .build s = .next (s.failedWith .empty)

/-- R129: two BUILDs that complete with ERR = NONE in equal configurations, from equal counts, give
identical node stores and results. -/
def Obligations.BuildDependsOnlyOnTheCounts : Prop :=
  ∀ s u s' u' : State, s.cfg = u.cfg → (∀ x < s.cfg.nsymMax, s.cnt.read x = u.cnt.read x) →
    exec .build s = .next s' → exec .build u = .next u' → s'.err = .noError → u'.err = .noError →
    s'.phase = u'.phase ∧ s'.res0 = u'.res0 ∧ s'.res1 = u'.res1 ∧ s'.res2 = u'.res2 ∧
    s'.res3 = u'.res3

/-- R132: the scan does not always pick the two smallest frequencies; it does where W[0]'s frequency
is at most W[1]'s, and where W has two elements. -/
def Obligations.ScanPicksTheTwoSmallestFromAnOrderedStart : Prop :=
  ∀ nodes : List Node,
    (∀ a b c, freqAt nodes a = 5 → freqAt nodes b = 1 → freqAt nodes c = 3 →
      select nodes [a, b, c] = some (c, a)) ∧
    (∀ a b, select nodes [a, b] = some (a, b)) ∧
    ∀ a b rest c1 c2, freqAt nodes a ≤ freqAt nodes b →
      select nodes (a :: b :: rest) = some (c1, c2) →
      freqAt nodes c1 ≤ freqAt nodes c2 ∧
      ∀ v ∈ a :: b :: rest, v = c1 ∨ v = c2 ∨ freqAt nodes c2 ≤ freqAt nodes v

/-- R130: with a tree, in a state that meets the invariant, DEPTH completes with the depth of ROOT in
RES0, between 1 and NSYM, and 0 in RES1 to RES3; nothing else changes. -/
def Obligations.DepthMeasuresTheTree : Prop :=
  ∀ (s : State) (st : NodeStore), s.Inv → s.phase = .built st →
    ∃ d, st.IsDepth st.root d ∧ 1 ≤ d ∧ d ≤ s.nsym ∧
      exec .depth s = .next { s.succeeded with
        res0 := BitVec.ofNat 32 d
        res1 := 0
        res2 := 0
        res3 := 0 }

/-- R131: with a tree, in a state that meets the invariant, NODERD of an index below NNODES completes
with the entry's fields in RES0 to RES3; nothing else changes. -/
def Obligations.NoderdReadsTheEntry : Prop :=
  ∀ (s : State) (st : NodeStore) (idx : BitVec 17), s.Inv → s.phase = .built st →
    idx.toNat < st.nnodes →
    ∃ e t, st.nodes[idx.toNat]? = some e ∧ exec (.noderd idx) s = .next t ∧
      t.res0.toNat = e.f ∧
      t.res1.toNat = (if e.bit then 2 ^ 17 else 0) + (if e.kind = .internal then 2 ^ 16 else 0) +
        e.sym.toNat ∧
      t.res2.toNat = e.left ∧ t.res3.toNat = e.right ∧
      t = { s.succeeded with res0 := t.res0, res1 := t.res1, res2 := t.res2, res3 := t.res3 }

/-- R27: PHASE changes only to BUILT by a BUILD that completes with ERR = NONE, and to COUNTING by
CLEAR and reset; the node store is written by BUILD alone (R42). -/
def Obligations.OnlyBuildClearResetChangeThePhase : Prop :=
  ∀ s t : State, step s = .next t →
    (t.phase = s.phase ∧ ¬ s.ResetNext ∧ ¬ s.Completes .clear ∧
      ¬ (s.Completes .build ∧ t.err = .noError)) ∨
    (s.Completes .build ∧ t.err = .noError ∧ s.phase = .counting ∧ ∃ st, t.phase = .built st) ∨
    (s.Completes .clear ∧ t.phase = .counting) ∨ (s.ResetNext ∧ t.phase = .counting)

/-! ### Code resolver (42_code_resolver.md) -/

/-- R140, R142: with a tree, in a state that meets the invariant, RESOLVE of a symbol of the alphabet
completes; RES0 is 2 plus the bit of the leaf of the symbol, or 0 where no leaf has it; nothing else
changes. -/
def Obligations.ResolveReturnsTheLeafBit : Prop :=
  ∀ (s : State) (st : NodeStore) (sym : Symbol), s.Inv → s.phase = .built st →
    s.cfg.SymFits sym →
    exec (.resolve sym) s = .next { s.succeeded with
      res0 := match st.directCode s.nsym sym with
        | none => 0
        | some false => 2
        | some true => 3
      res1 := 0
      res2 := 0
      res3 := 0 }

/-- R141: in a one-leaf tree the resolver returns the leaf's default bit 0. -/
def Obligations.OneLeafTreeResolvesToZero : Prop :=
  ∀ (s : State) (sym : Symbol) (n : Nat), s.Inv → s.phase = .counting →
    s.cnt = [(sym.toNat, n)] →
    ∃ t, exec .build s = .next t ∧
      exec (.resolve sym) t = .next { t.succeeded with res0 := 2, res1 := 0, res2 := 0, res3 := 0 }

/-! ### Bit packer (43_bit_packer.md) -/

/-- R152, R151: with the packer open, a PUTBIT that does not complete a byte completes even when the
FIFO is full, and puts the bit at PKBUF[7 − PKBITS]; one that completes a byte needs room, pushes it
out and empties the packer. Nothing else changes. -/
def Obligations.PutbitFeedsOneBit : Prop :=
  ∀ (s : State) (b : Bool), s.pkopen = true →
    ∃ buf : Byte, (∀ j < 8, buf.getLsbD j =
        if j = 7 - s.pkbits.toNat then b else s.pkbuf.getLsbD j) ∧
      (s.pkbits.toNat < 7 →
        exec (.putbit b) s = .next { s.succeeded with pkbuf := buf, pkbits := s.pkbits + 1 }) ∧
      (s.pkbits.toNat = 7 → s.fifo.length ≠ s.cfg.ofifoDepth →
        exec (.putbit b) s = .next { s.succeeded with
          pkbuf := 0
          pkbits := 0
          fifo := s.fifo ++ [buf]
          bytesout := s.bytesout + 1 })

/-- R64, R151: eight bits fed from an empty packer make one byte, the first bit at bit 7 and the
eighth at bit 0. -/
def Obligations.EightBitsMakeOneByteMsbFirst : Prop :=
  ∀ (s : State) (bits : List Bool), s.pkopen = true → s.pkbits = 0 → bits.length = 8 →
    s.fifo.length ≠ s.cfg.ofifoDepth →
    ∃ (t : State) (byte : Byte), execList (bits.map Instr.putbit) s = .next t ∧
      (∀ k < 8, some (byte.getLsbD (7 - k)) = bits[k]?) ∧
      t.fifo = s.fifo ++ [byte] ∧ t.bytesout = s.bytesout + 1 ∧ t.pkbits = 0 ∧ t.pkbuf = 0

/-- R153: with the packer open, CLOSE with no bit pending completes and emits nothing; with bits
pending and room it pushes PKBUF out and empties the packer. Either closes it; nothing else
changes. -/
def Obligations.CloseFlushesAndCloses : Prop :=
  ∀ s : State, s.pkopen = true →
    (s.pkbits = 0 → exec .closeStream s = .next { s.succeeded with pkopen := false }) ∧
    (s.pkbits ≠ 0 → s.fifo.length ≠ s.cfg.ofifoDepth →
      exec .closeStream s = .next { s.succeeded with
        pkopen := false
        pkbuf := 0
        pkbits := 0
        fifo := s.fifo ++ [s.pkbuf]
        bytesout := s.bytesout + 1 })

/-- R154: with the packer closed, OPEN completes with an empty open packer and BYTESOUT = 0; the FIFO
and everything else stay. -/
def Obligations.OpenStartsAStream : Prop :=
  ∀ s : State, s.pkopen = false →
    exec .openStream s = .next { s.succeeded with
      pkopen := true
      pkbuf := 0
      pkbits := 0
      bytesout := 0 }

/-- R28: reset, CLEAR and an OPEN that completes with ERR = NONE set PKOPEN to 1, a CLOSE that
completes with ERR = NONE sets it to 0, and no other event changes it. -/
def Obligations.OnlyOpenCloseClearResetChangePkopen : Prop :=
  ∀ s t : State, step s = .next t →
    (s.ResetNext → t.pkopen = true) ∧
    (s.Completes .clear → t.pkopen = true) ∧
    (s.Completes .openStream → t.err = .noError → t.pkopen = true) ∧
    (s.Completes .closeStream → t.err = .noError → t.pkopen = false) ∧
    (t.pkopen = s.pkopen ∨ s.ResetNext ∨ s.Completes .clear ∨
      ((s.Completes .openStream ∨ s.Completes .closeStream) ∧ t.err = .noError))

/-- R45: the FIFO is a queue. A step leaves it, appends one byte at the tail by a PUTBIT, ENCODE or
CLOSE, takes the head by a read of OUT, or empties it by CLEAR or reset. (That CLOSE may append is R153,
which the model follows against R45's wording, log entry 16.) -/
def Obligations.FifoIsAQueue : Prop :=
  ∀ s t : State, step s = .next t →
    t.fifo = s.fifo ∨
    (∃ b, (s.Completes .closeStream ∨ ∃ v sym, s.Completes (.putbit v) ∨ s.Completes (.encode sym)) ∧
      t.fifo = s.fifo ++ [b]) ∨
    (∃ a, s.HostNext a ∧ a.op = .read ∧ Reg.ofAddress a.addr = .out ∧ t.fifo = s.fifo.tail) ∨
    (t.fifo = [] ∧ (s.Completes .clear ∨ s.ResetNext))

/-! ### Encoder (44_encoder.md) -/

/-- R165, R166: with a tree, the packer open, room in the FIFO and a leaf of the symbol with bit r, in
a state that meets the invariant, ENCODE completes and emits exactly one byte: P | ({7'b0, r} >> p).
The new PKBUF is ({7'b0, r} << (8 − p)) mod 256 and PKBITS stays p; nothing else changes. -/
def Obligations.EncodeEmitsOneShiftedByte : Prop :=
  ∀ (s : State) (st : NodeStore) (sym : Symbol) (r : Bool), s.Inv → s.phase = .built st →
    s.cfg.SymFits sym → s.pkopen = true → st.directCode s.nsym sym = some r →
    s.fifo.length ≠ s.cfg.ofifoDepth →
    exec (.encode sym) s = .next { s.succeeded with
      pkbuf := (if r then 1#8 else 0#8) <<< (8 - s.pkbits.toNat)
      fifo := s.fifo ++ [s.pkbuf ||| ((if r then 1#8 else 0#8) >>> s.pkbits.toNat)]
      bytesout := s.bytesout + 1 }

/-- R167, R169: encoding the characters of a text, each of which has a leaf, with an aligned packer and
room for them emits one byte per character, 0x00 or 0x01, the bit of its leaf, in order, and leaves the
packer aligned. -/
def Obligations.EncodingATextEmitsItsBits : Prop :=
  ∀ (s : State) (st : NodeStore) (text : List Symbol), s.Inv → s.phase = .built st →
    s.pkopen = true → s.pkbits = 0 →
    (∀ c ∈ text, s.cfg.SymFits c ∧ (st.directCode s.nsym c).isSome) →
    s.fifo.length + text.length ≤ s.cfg.ofifoDepth →
    ∃ t, execList (text.map Instr.encode) s = .next t ∧
      t.fifo = s.fifo ++ text.map (fun c =>
        if st.directCode s.nsym c = some true then 0x01#8 else 0x00#8) ∧
      t.pkbits = 0 ∧ t.phase = s.phase ∧ t.bytesout = s.bytesout + BitVec.ofNat 32 text.length

/-- R32: RES0 to RES3 change only by a BUILD, RESOLVE, GETFREQ, DEPTH or NODERD that completes with
ERR = NONE, by CLEAR, which writes 0, and by reset. -/
def Obligations.OnlyFiveCommandsWriteTheResults : Prop :=
  ∀ s t : State, step s = .next t →
    (t.res0 = s.res0 ∧ t.res1 = s.res1 ∧ t.res2 = s.res2 ∧ t.res3 = s.res3) ∨
    (t.err = .noError ∧ (s.Completes .build ∨ s.Completes .depth ∨
      ∃ sym idx, s.Completes (.resolve sym) ∨ s.Completes (.getfreq sym) ∨
        s.Completes (.noderd idx))) ∨
    ((s.Completes .clear ∨ s.ResetNext) ∧
      t.res0 = 0 ∧ t.res1 = 0 ∧ t.res2 = 0 ∧ t.res3 = 0)

/-! ### The HOST's accesses (10_state.md section 2, 20_memory.md) -/

/-- R24, R189: a HOST write to CMD fills an empty PEND and changes nothing else of HUFFCORE's; while a
command is pending it is dropped and sets STICKY[0] and nothing else. A read of CMD returns 0 and has
no side effect. -/
def Obligations.CmdWritesAreAcceptedOrDropped : Prop :=
  ∀ s : State, s.cfg.Legal →
    (∀ v, s.HostNext (.wr s.cfg .cmd v) → s.pend = none →
      step s = .next { s.turnTaken with pend := some v, reply := some .done }) ∧
    (∀ v w, s.HostNext (.wr s.cfg .cmd v) → s.pend = some w →
      step s = .next { s.turnTaken with sticky := s.sticky ||| 1#10, reply := some .done }) ∧
    (s.HostNext (.rd s.cfg .cmd) →
      step s = .next { s.turnTaken with reply := some (.data 0) })

/-- R33: a read of OUT returns VALID and the head byte and removes it, or returns 0 where the FIFO is
empty; it works while a command is pending; writes are ignored. -/
def Obligations.OutReadsPopTheHead : Prop :=
  ∀ s : State, s.cfg.Legal →
    (s.HostNext (.rd s.cfg .out) → s.fifo = [] →
      step s = .next { s.turnTaken with reply := some (.data 0) }) ∧
    (∀ b rest, s.HostNext (.rd s.cfg .out) → s.fifo = b :: rest →
      step s = .next { s.turnTaken with
        fifo := rest
        reply := some (.data (BitVec.ofNat 32 (0x100 + b.toNat))) }) ∧
    (∀ v, s.HostNext (.wr s.cfg .out v) →
      step s = .next { s.turnTaken with reply := some .done })

/-- R66: a read of a register other than OUT returns its value and has no side effect; a write of a
register other than CMD and STICKY is ignored. -/
def Obligations.OtherAccessesHaveNoSideEffect : Prop :=
  ∀ (s : State) (r : Reg), s.cfg.Legal →
    (r ≠ .out → s.HostNext (.rd s.cfg r) →
      step s = .next { s.turnTaken with reply := some (.data (s.readReg r)) }) ∧
    (∀ v, r ≠ .cmd → r ≠ .sticky → s.HostNext (.wr s.cfg r v) →
      step s = .next { s.turnTaken with reply := some .done })

/-- R39: a HOST write of v to STICKY clears every bit i with v[i] = 1 and leaves every other bit; bits
31 to 10 read 0. -/
def Obligations.StickyWritesClearTheirBits : Prop :=
  ∀ (s : State) (v : Word), s.cfg.Legal → s.HostNext (.wr s.cfg .sticky v) →
    ∃ t, step s = .next t ∧
      (∀ k, (t.readReg .sticky).getLsbD k =
        ((s.readReg .sticky).getLsbD k && !v.getLsbD k)) ∧
      (∀ k, 10 ≤ k → (t.readReg .sticky).getLsbD k = false) ∧
      t = { s.turnTaken with sticky := t.sticky, reply := some .done }

/-- R25, R26, R30: STATUS is BUSY, PHASE, PKOPEN, ERR, PKBITS and DONECNT at their places, ERR with the
numbers of R185. -/
def Obligations.StatusShowsItsFields : Prop :=
  ∀ s : State, (s.readReg .status).toNat =
    (if s.pend.isSome then 1 else 0) + (if s.phase = .counting then 0 else 2) +
    (if s.pkopen then 8 else 0) +
    16 * (match s.err with
      | .noError => 0
      | .opcode => 1
      | .operand => 2
      | .phase => 3
      | .pkstate => 4
      | .empty => 5
      | .overflow => 6
      | .notFound => 7
      | .ofull => 8
      | .range => 9) +
    256 * s.pkbits.toNat + 65536 * s.donecnt.toNat

/-- R22, R23, R32, R34 to R39, R46: what every register but CMD, STATUS and OUT shows: ID, CFG, RES0 to
RES3, OUTLVL, PK, BYTESOUT, NSYM, TOTAL, STICKY and the reserved offset. CFG, OUTLVL, NSYM and TOTAL
show their whole value, in a state that meets the invariant. -/
def Obligations.RegistersShowTheirContents : Prop :=
  ∀ s : State, s.Inv →
    s.readReg .id = 0x48554646 ∧
    s.readReg .res0 = s.res0 ∧ s.readReg .res1 = s.res1 ∧
    s.readReg .res2 = s.res2 ∧ s.readReg .res3 = s.res3 ∧
    s.readReg .bytesout = s.bytesout ∧
    (s.readReg .sticky).toNat = s.sticky.toNat ∧
    (s.readReg .cfg).toNat = s.cfg.symw + 256 * s.cfg.freqw + 65536 * s.cfg.ofifoDepth ∧
    (s.readReg .outlvl).toNat = s.fifo.length ∧
    (s.readReg .pk).toNat = s.pkbuf.toNat + 256 * s.pkbits.toNat ∧
    (s.readReg .nsym).toNat = s.nsym ∧ s.nsym ≤ s.cfg.nsymMax ∧
    (s.readReg .total).toNat = s.total ∧
    s.readReg .reserved = 0

/-- R60 and the register map of 10_state.md section 2: each register is at its offset, where `rd` and
`wr` address it and an access of a word reaches HUFFCORE; an access no byte of which lies in the window
does not reach HUFFCORE and changes nothing of it. -/
def Obligations.TheWindowHoldsSixteenRegisters : Prop :=
  ∀ c : Config, c.Legal →
    (∀ p ∈ [(0x00, Reg.id), (0x04, .cfg), (0x08, .cmd), (0x0C, .status),
        (0x10, .res0), (0x14, .res1), (0x18, .res2), (0x1C, .res3),
        (0x20, .out), (0x24, .outlvl), (0x28, .pk), (0x2C, .bytesout),
        (0x30, .nsym), (0x34, .total), (0x38, .sticky), (0x3C, .reserved)],
      Reg.ofAddress (c.huffBase + p.1) = p.2 ∧
      (HostAccess.rd c p.2).addr = c.huffBase + p.1 ∧
      (∀ v, (HostAccess.wr c p.2 v).addr = c.huffBase + p.1) ∧
      ∀ a : HostAccess, a.addr = c.huffBase + p.1 → a.bytes = 4 → a.reaches c = true) ∧
    ∀ (s : State) (a : HostAccess), s.cfg = c → s.HostNext a →
      (∀ k < a.bytes, ¬ (c.huffBase ≤ a.addr + k ∧ a.addr + k < c.huffBase + 64)) →
      step s = .next { s.turnTaken with reply := none }

/-- R62: an access to the window that is not an aligned whole word gets the bus error response, which
carries 0, and has no side effect; the model treats it as a HOST fault. -/
def Obligations.UndefinedAccessesAreHostFaults : Prop :=
  ∀ (s : State) (a : HostAccess), a.reaches s.cfg = true →
    (a.bytes ≠ 4 ∨ a.allLanes = false ∨ a.addr % 4 ≠ 0) →
    s.answer a = .busError ∧ (s.answer a).word = 0 ∧ s.afterAccess a = s ∧
    (s.HostNext a → step s = .fault (.undefinedAccess a))

/-- R72: while a command is pending, HOST reads return the state before its completion, except that
STATUS.BUSY reads 1. -/
def Obligations.PendingReadsShowTheOldState : Prop :=
  ∀ (s : State) (w : Word), s.pend = none →
    (∀ r : Reg, r ≠ .status →
      ({ s with pend := some w } : State).readReg r = s.readReg r) ∧
    ({ s with pend := some w } : State).readReg .status = s.readReg .status ||| 1#32

/-- R99's `do`, with R70 and R75: a command written with BUSY = 0 completes under the HOST's polls,
however many come before its completion, as it would without them, and the read of STATUS that ends
`wait` shows the STATUS it left. -/
def Obligations.DoRunsTheCommand : Prop :=
  ∀ (s t : State) (w : Word) (polls : Nat) (rest : List Turn), s.cfg.Legal → s.pend = none →
    s.turns = doCommand s.cfg polls w ++ rest →
    completeWord w { s with pend := some w } = .next t →
    core.run (polls + 3) s = .next { t with
      turns := rest
      reply := some (.data t.status) }

/-! ### Orders the interleaving admits (20_memory.md section 5) -/

/-- R73: of a HOST clear and a completion's set of the same STICKY bit, the second decides; both orders
are runs. -/
def Obligations.StickyRaceAdmitsBothOrders : Prop :=
  ∀ (s : State) (w v : Word) (e : ErrCode), s.cfg.Legal → s.pend = some w → e ≠ .noError →
    completeWord w s = .next (s.failedWith e) → v.getLsbD e.code.toNat = true →
    (∃ t, core.run 2 { s with turns := [.core, .host (.wr s.cfg .sticky v)] } = .next t ∧
      t.sticky.getLsbD e.code.toNat = false) ∧
    (∃ t, core.run 2 { s with turns := [.host (.wr s.cfg .sticky v), .core] } = .next t ∧
      t.sticky.getLsbD e.code.toNat = true)

/-- R220, R24, R189: a command written before the pending one has completed is dropped, and STICKY[0]
says so; written after, it is accepted. Both orders are runs. -/
def Obligations.IssueHazardAdmitsBothOrders : Prop :=
  ∀ (s : State) (w v : Word), s.Inv → s.pend = some w →
    (∃ t, core.run 2 { s with turns := [.core, .host (.wr s.cfg .cmd v)] } = .next t ∧
      t.pend = some v ∧ t.donecnt = s.donecnt + 1) ∧
    (∃ t, core.run 2 { s with turns := [.host (.wr s.cfg .cmd v), .core] } = .next t ∧
      t.pend = none ∧ t.donecnt = s.donecnt + 1 ∧ t.sticky.getLsbD 0 = true)

/-! ### Reset (70_reset_and_hazards.md) -/

/-- R50: a reset gives every state element its value in R50's table, PEND among them, so a pending
command is discarded; STATUS then reads 0x00000008. (That the turn is taken and the record of the
latest answer emptied is the model's choice, log entries 11 and 13.) -/
def Obligations.ResetRestoresEveryElement : Prop :=
  ∀ s : State, s.ResetNext →
    ∃ t, step s = .next t ∧ t.status = 0x00000008 ∧
      t = {
        cfg := s.cfg
        pend := none
        phase := .counting
        err := .noError
        donecnt := 0
        res0 := 0
        res1 := 0
        res2 := 0
        res3 := 0
        cnt := []
        nsym := 0
        total := 0
        pkopen := true
        pkbuf := 0
        pkbits := 0
        bytesout := 0
        fifo := []
        sticky := 0
        turns := s.turns.tail
        reply := none }

/-! ### Invariants (10_state.md section 4) -/

/-- R50 and R48: the reset state of every legal configuration, the reference one among them, meets
the invariant. -/
def Obligations.ResetMeetsTheInvariant : Prop :=
  (∀ c : Config, c.Legal → (State.resetWith c).Inv) ∧ State.reset.Inv

/-- R48: every step of the HOST, the CORE or the reset input keeps the invariant. -/
def Obligations.EveryStepKeepsTheInvariant : Prop :=
  ∀ s t : State, s.Inv → step s = .next t → t.Inv

/-- R206: a state that meets the invariant steps, unless the next turn is an access R62 does not
define. (That an idle CORE turn, and a state with no turn left, step at all is the model's choice, log
entry 3.) -/
def Obligations.InvariantStatesNeverStop : Prop :=
  ∀ s : State, s.Inv → (∀ x ∈ s.turns.head?, x.Admitted s.cfg) → ∃ t, step s = .next t

/-- R70, R206: from a state that meets the invariant, with defined HOST accesses to come, a pending
command completes (or a reset discards it) after finitely many steps, at most those its turns have
patience for; where no turn is a loop, the machine runs through all of them and leaves no command
pending. (That the command completes where no turn is left is the model's form of R70's fairness, log
entry 3, and the bound is that of the turns, log entry 2.) -/
def Obligations.EveryPendingCommandCompletes : Prop :=
  ∀ s : State, s.Inv → (∀ x ∈ s.turns, x.Admitted s.cfg) →
    (∃ k ≤ (s.turns.map Turn.patience).sum + 1, ∃ t, core.run k s = .next t ∧ t.pend = none) ∧
    ((∀ x ∈ s.turns, x.single = true) →
      ∃ t, core.run (s.turns.length + 1) s = .next t ∧ t.pend = none ∧ t.turns = [])

/-- R206: in a state that meets the invariant, a HOST that waits on BUSY proceeds, with no command
pending; one that waits on OUT VALID = 1 with no command pending and the FIFO empty reads 0 for ever, and
nothing of HUFFCORE changes. -/
def Obligations.HostWaitsProceedOrHang : Prop :=
  ∀ s : State, s.Inv →
    (∀ polls rest, s.turns = wait polls :: rest →
      ∃ k ≤ polls + 2, ∃ t, core.run k s = .next t ∧ t.turns = rest ∧ t.pend = none) ∧
    (∀ polls rest, s.turns = awaitByte polls :: rest → s.pend = none → s.fifo = [] →
      ∀ k, core.run (k + 1) s = .next { s with reply := some (.data 0) })

/-- R22: ID is hardwired; no step, reset among them, changes it, nor the configuration that CFG
shows. -/
def Obligations.TheConstantsAreHardwired : Prop :=
  ∀ s t : State, step s = .next t →
    t.readReg .id = 0x48554646 ∧ t.cfg = s.cfg ∧ t.readReg .cfg = s.readReg .cfg
end

