-- ==== Sys2Proof/Laws/Bits.lean ====
section
/-! SUPPORT. The value of a concatenation (R10), for the registers put together from fields. -/

namespace Sys2Proof

/-- The value of {x, y}: x in the more significant position. -/
theorem toNat_append_eq {v w : Nat} (x : BitVec v) (y : BitVec w) :
    (x ++ y).toNat = x.toNat * 2 ^ w + y.toNat := by
  rw [BitVec.toNat_append, ← Nat.shiftLeft_add_eq_or_of_lt y.isLt, Nat.shiftLeft_eq]

end Sys2Proof
end

