-- ==== Sys2Proof/Laws/State.lean ====
section
/-! SUPPORT. One lemma per field per state update, so that no proof unfolds a record update. -/

namespace Sys2Proof.Machine

variable (s : State)

/-! ### bookkeep: The completion bookkeeping (R186). -/

@[simp] theorem bookkeep_cfg (e : ErrCode) : (s.bookkeep e).cfg = s.cfg := rfl
@[simp] theorem bookkeep_pend (e : ErrCode) : (s.bookkeep e).pend = none := rfl
@[simp] theorem bookkeep_phase (e : ErrCode) : (s.bookkeep e).phase = s.phase := rfl
@[simp] theorem bookkeep_err (e : ErrCode) : (s.bookkeep e).err = e := rfl
@[simp] theorem bookkeep_donecnt (e : ErrCode) : (s.bookkeep e).donecnt = s.donecnt + 1 := rfl
@[simp] theorem bookkeep_res0 (e : ErrCode) : (s.bookkeep e).res0 = s.res0 := rfl
@[simp] theorem bookkeep_res1 (e : ErrCode) : (s.bookkeep e).res1 = s.res1 := rfl
@[simp] theorem bookkeep_res2 (e : ErrCode) : (s.bookkeep e).res2 = s.res2 := rfl
@[simp] theorem bookkeep_res3 (e : ErrCode) : (s.bookkeep e).res3 = s.res3 := rfl
@[simp] theorem bookkeep_cnt (e : ErrCode) : (s.bookkeep e).cnt = s.cnt := rfl
@[simp] theorem bookkeep_nsym (e : ErrCode) : (s.bookkeep e).nsym = s.nsym := rfl
@[simp] theorem bookkeep_total (e : ErrCode) : (s.bookkeep e).total = s.total := rfl
@[simp] theorem bookkeep_pkopen (e : ErrCode) : (s.bookkeep e).pkopen = s.pkopen := rfl
@[simp] theorem bookkeep_pkbuf (e : ErrCode) : (s.bookkeep e).pkbuf = s.pkbuf := rfl
@[simp] theorem bookkeep_pkbits (e : ErrCode) : (s.bookkeep e).pkbits = s.pkbits := rfl
@[simp] theorem bookkeep_bytesout (e : ErrCode) : (s.bookkeep e).bytesout = s.bytesout := rfl
@[simp] theorem bookkeep_fifo (e : ErrCode) : (s.bookkeep e).fifo = s.fifo := rfl
@[simp] theorem bookkeep_sticky (e : ErrCode) :
    (s.bookkeep e).sticky = stickyAfter s.sticky e := rfl
@[simp] theorem bookkeep_turns (e : ErrCode) : (s.bookkeep e).turns = s.turns := rfl
@[simp] theorem bookkeep_reply (e : ErrCode) : (s.bookkeep e).reply = s.reply := rfl

/-! ### setRes: The four result registers (R32). -/

@[simp] theorem setRes_cfg (a b c d : Word) : (s.setRes a b c d).cfg = s.cfg := rfl
@[simp] theorem setRes_pend (a b c d : Word) : (s.setRes a b c d).pend = s.pend := rfl
@[simp] theorem setRes_phase (a b c d : Word) : (s.setRes a b c d).phase = s.phase := rfl
@[simp] theorem setRes_err (a b c d : Word) : (s.setRes a b c d).err = s.err := rfl
@[simp] theorem setRes_donecnt (a b c d : Word) : (s.setRes a b c d).donecnt = s.donecnt := rfl
@[simp] theorem setRes_res0 (a b c d : Word) : (s.setRes a b c d).res0 = a := rfl
@[simp] theorem setRes_res1 (a b c d : Word) : (s.setRes a b c d).res1 = b := rfl
@[simp] theorem setRes_res2 (a b c d : Word) : (s.setRes a b c d).res2 = c := rfl
@[simp] theorem setRes_res3 (a b c d : Word) : (s.setRes a b c d).res3 = d := rfl
@[simp] theorem setRes_cnt (a b c d : Word) : (s.setRes a b c d).cnt = s.cnt := rfl
@[simp] theorem setRes_nsym (a b c d : Word) : (s.setRes a b c d).nsym = s.nsym := rfl
@[simp] theorem setRes_total (a b c d : Word) : (s.setRes a b c d).total = s.total := rfl
@[simp] theorem setRes_pkopen (a b c d : Word) : (s.setRes a b c d).pkopen = s.pkopen := rfl
@[simp] theorem setRes_pkbuf (a b c d : Word) : (s.setRes a b c d).pkbuf = s.pkbuf := rfl
@[simp] theorem setRes_pkbits (a b c d : Word) : (s.setRes a b c d).pkbits = s.pkbits := rfl
@[simp] theorem setRes_bytesout (a b c d : Word) : (s.setRes a b c d).bytesout = s.bytesout := rfl
@[simp] theorem setRes_fifo (a b c d : Word) : (s.setRes a b c d).fifo = s.fifo := rfl
@[simp] theorem setRes_sticky (a b c d : Word) : (s.setRes a b c d).sticky = s.sticky := rfl
@[simp] theorem setRes_turns (a b c d : Word) : (s.setRes a b c d).turns = s.turns := rfl
@[simp] theorem setRes_reply (a b c d : Word) : (s.setRes a b c d).reply = s.reply := rfl

/-! ### pushOut: push_out (R150). -/

@[simp] theorem pushOut_cfg (b : Byte) : (s.pushOut b).cfg = s.cfg := rfl
@[simp] theorem pushOut_pend (b : Byte) : (s.pushOut b).pend = s.pend := rfl
@[simp] theorem pushOut_phase (b : Byte) : (s.pushOut b).phase = s.phase := rfl
@[simp] theorem pushOut_err (b : Byte) : (s.pushOut b).err = s.err := rfl
@[simp] theorem pushOut_donecnt (b : Byte) : (s.pushOut b).donecnt = s.donecnt := rfl
@[simp] theorem pushOut_res0 (b : Byte) : (s.pushOut b).res0 = s.res0 := rfl
@[simp] theorem pushOut_res1 (b : Byte) : (s.pushOut b).res1 = s.res1 := rfl
@[simp] theorem pushOut_res2 (b : Byte) : (s.pushOut b).res2 = s.res2 := rfl
@[simp] theorem pushOut_res3 (b : Byte) : (s.pushOut b).res3 = s.res3 := rfl
@[simp] theorem pushOut_cnt (b : Byte) : (s.pushOut b).cnt = s.cnt := rfl
@[simp] theorem pushOut_nsym (b : Byte) : (s.pushOut b).nsym = s.nsym := rfl
@[simp] theorem pushOut_total (b : Byte) : (s.pushOut b).total = s.total := rfl
@[simp] theorem pushOut_pkopen (b : Byte) : (s.pushOut b).pkopen = s.pkopen := rfl
@[simp] theorem pushOut_pkbuf (b : Byte) : (s.pushOut b).pkbuf = s.pkbuf := rfl
@[simp] theorem pushOut_pkbits (b : Byte) : (s.pushOut b).pkbits = s.pkbits := rfl
@[simp] theorem pushOut_bytesout (b : Byte) : (s.pushOut b).bytesout = s.bytesout + 1 := rfl
@[simp] theorem pushOut_fifo (b : Byte) : (s.pushOut b).fifo = s.fifo ++ [b] := rfl
@[simp] theorem pushOut_sticky (b : Byte) : (s.pushOut b).sticky = s.sticky := rfl
@[simp] theorem pushOut_turns (b : Byte) : (s.pushOut b).turns = s.turns := rfl
@[simp] theorem pushOut_reply (b : Byte) : (s.pushOut b).reply = s.reply := rfl

/-! ### emptyPacker: An empty packer buffer. -/

@[simp] theorem emptyPacker_cfg : (s.emptyPacker).cfg = s.cfg := rfl
@[simp] theorem emptyPacker_pend : (s.emptyPacker).pend = s.pend := rfl
@[simp] theorem emptyPacker_phase : (s.emptyPacker).phase = s.phase := rfl
@[simp] theorem emptyPacker_err : (s.emptyPacker).err = s.err := rfl
@[simp] theorem emptyPacker_donecnt : (s.emptyPacker).donecnt = s.donecnt := rfl
@[simp] theorem emptyPacker_res0 : (s.emptyPacker).res0 = s.res0 := rfl
@[simp] theorem emptyPacker_res1 : (s.emptyPacker).res1 = s.res1 := rfl
@[simp] theorem emptyPacker_res2 : (s.emptyPacker).res2 = s.res2 := rfl
@[simp] theorem emptyPacker_res3 : (s.emptyPacker).res3 = s.res3 := rfl
@[simp] theorem emptyPacker_cnt : (s.emptyPacker).cnt = s.cnt := rfl
@[simp] theorem emptyPacker_nsym : (s.emptyPacker).nsym = s.nsym := rfl
@[simp] theorem emptyPacker_total : (s.emptyPacker).total = s.total := rfl
@[simp] theorem emptyPacker_pkopen : (s.emptyPacker).pkopen = s.pkopen := rfl
@[simp] theorem emptyPacker_pkbuf : (s.emptyPacker).pkbuf = 0 := rfl
@[simp] theorem emptyPacker_pkbits : (s.emptyPacker).pkbits = 0 := rfl
@[simp] theorem emptyPacker_bytesout : (s.emptyPacker).bytesout = s.bytesout := rfl
@[simp] theorem emptyPacker_fifo : (s.emptyPacker).fifo = s.fifo := rfl
@[simp] theorem emptyPacker_sticky : (s.emptyPacker).sticky = s.sticky := rfl
@[simp] theorem emptyPacker_turns : (s.emptyPacker).turns = s.turns := rfl
@[simp] theorem emptyPacker_reply : (s.emptyPacker).reply = s.reply := rfl

/-! ### countSymbol: COUNT's change (R110). -/

@[simp] theorem countSymbol_cfg (k : Nat) : (s.countSymbol k).cfg = s.cfg := rfl
@[simp] theorem countSymbol_pend (k : Nat) : (s.countSymbol k).pend = s.pend := rfl
@[simp] theorem countSymbol_phase (k : Nat) : (s.countSymbol k).phase = s.phase := rfl
@[simp] theorem countSymbol_err (k : Nat) : (s.countSymbol k).err = s.err := rfl
@[simp] theorem countSymbol_donecnt (k : Nat) : (s.countSymbol k).donecnt = s.donecnt := rfl
@[simp] theorem countSymbol_res0 (k : Nat) : (s.countSymbol k).res0 = s.res0 := rfl
@[simp] theorem countSymbol_res1 (k : Nat) : (s.countSymbol k).res1 = s.res1 := rfl
@[simp] theorem countSymbol_res2 (k : Nat) : (s.countSymbol k).res2 = s.res2 := rfl
@[simp] theorem countSymbol_res3 (k : Nat) : (s.countSymbol k).res3 = s.res3 := rfl
@[simp] theorem countSymbol_cnt (k : Nat) :
    (s.countSymbol k).cnt = s.cnt.write k (s.cnt.read k + 1) := rfl
@[simp] theorem countSymbol_nsym (k : Nat) :
    (s.countSymbol k).nsym = if s.cnt.read k = 0 then s.nsym + 1 else s.nsym := rfl
@[simp] theorem countSymbol_total (k : Nat) : (s.countSymbol k).total = s.total + 1 := rfl
@[simp] theorem countSymbol_pkopen (k : Nat) : (s.countSymbol k).pkopen = s.pkopen := rfl
@[simp] theorem countSymbol_pkbuf (k : Nat) : (s.countSymbol k).pkbuf = s.pkbuf := rfl
@[simp] theorem countSymbol_pkbits (k : Nat) : (s.countSymbol k).pkbits = s.pkbits := rfl
@[simp] theorem countSymbol_bytesout (k : Nat) : (s.countSymbol k).bytesout = s.bytesout := rfl
@[simp] theorem countSymbol_fifo (k : Nat) : (s.countSymbol k).fifo = s.fifo := rfl
@[simp] theorem countSymbol_sticky (k : Nat) : (s.countSymbol k).sticky = s.sticky := rfl
@[simp] theorem countSymbol_turns (k : Nat) : (s.countSymbol k).turns = s.turns := rfl
@[simp] theorem countSymbol_reply (k : Nat) : (s.countSymbol k).reply = s.reply := rfl

/-! ### clearInput: CLEAR's change (R176). -/

@[simp] theorem clearInput_cfg : (s.clearInput).cfg = s.cfg := rfl
@[simp] theorem clearInput_pend : (s.clearInput).pend = s.pend := rfl
@[simp] theorem clearInput_phase : (s.clearInput).phase = .counting := rfl
@[simp] theorem clearInput_err : (s.clearInput).err = s.err := rfl
@[simp] theorem clearInput_donecnt : (s.clearInput).donecnt = s.donecnt := rfl
@[simp] theorem clearInput_res0 : (s.clearInput).res0 = 0 := rfl
@[simp] theorem clearInput_res1 : (s.clearInput).res1 = 0 := rfl
@[simp] theorem clearInput_res2 : (s.clearInput).res2 = 0 := rfl
@[simp] theorem clearInput_res3 : (s.clearInput).res3 = 0 := rfl
@[simp] theorem clearInput_cnt : (s.clearInput).cnt = [] := rfl
@[simp] theorem clearInput_nsym : (s.clearInput).nsym = 0 := rfl
@[simp] theorem clearInput_total : (s.clearInput).total = 0 := rfl
@[simp] theorem clearInput_pkopen : (s.clearInput).pkopen = true := rfl
@[simp] theorem clearInput_pkbuf : (s.clearInput).pkbuf = 0 := rfl
@[simp] theorem clearInput_pkbits : (s.clearInput).pkbits = 0 := rfl
@[simp] theorem clearInput_bytesout : (s.clearInput).bytesout = 0 := rfl
@[simp] theorem clearInput_fifo : (s.clearInput).fifo = [] := rfl
@[simp] theorem clearInput_sticky : (s.clearInput).sticky = s.sticky := rfl
@[simp] theorem clearInput_turns : (s.clearInput).turns = s.turns := rfl
@[simp] theorem clearInput_reply : (s.clearInput).reply = s.reply := rfl

/-! ### withPending: A pending word and the CORE's turn. -/

@[simp] theorem withPending_cfg (w : Word) : (s.withPending w).cfg = s.cfg := rfl
@[simp] theorem withPending_pend (w : Word) : (s.withPending w).pend = some w := rfl
@[simp] theorem withPending_phase (w : Word) : (s.withPending w).phase = s.phase := rfl
@[simp] theorem withPending_err (w : Word) : (s.withPending w).err = s.err := rfl
@[simp] theorem withPending_donecnt (w : Word) : (s.withPending w).donecnt = s.donecnt := rfl
@[simp] theorem withPending_res0 (w : Word) : (s.withPending w).res0 = s.res0 := rfl
@[simp] theorem withPending_res1 (w : Word) : (s.withPending w).res1 = s.res1 := rfl
@[simp] theorem withPending_res2 (w : Word) : (s.withPending w).res2 = s.res2 := rfl
@[simp] theorem withPending_res3 (w : Word) : (s.withPending w).res3 = s.res3 := rfl
@[simp] theorem withPending_cnt (w : Word) : (s.withPending w).cnt = s.cnt := rfl
@[simp] theorem withPending_nsym (w : Word) : (s.withPending w).nsym = s.nsym := rfl
@[simp] theorem withPending_total (w : Word) : (s.withPending w).total = s.total := rfl
@[simp] theorem withPending_pkopen (w : Word) : (s.withPending w).pkopen = s.pkopen := rfl
@[simp] theorem withPending_pkbuf (w : Word) : (s.withPending w).pkbuf = s.pkbuf := rfl
@[simp] theorem withPending_pkbits (w : Word) : (s.withPending w).pkbits = s.pkbits := rfl
@[simp] theorem withPending_bytesout (w : Word) : (s.withPending w).bytesout = s.bytesout := rfl
@[simp] theorem withPending_fifo (w : Word) : (s.withPending w).fifo = s.fifo := rfl
@[simp] theorem withPending_sticky (w : Word) : (s.withPending w).sticky = s.sticky := rfl
@[simp] theorem withPending_turns (w : Word) : (s.withPending w).turns = .core :: s.turns := rfl
@[simp] theorem withPending_reply (w : Word) : (s.withPending w).reply = s.reply := rfl

/-! ### put: what R151 leaves alone, and its two cases -/

theorem put_fills {s : State} (h : s.pkbits = 7) (v : Bool) :
    s.put v = (s.pushOut (s.pkbufWith v)).emptyPacker := if_pos h

theorem put_waits {s : State} (h : s.pkbits ≠ 7) (v : Bool) :
    s.put v = { s with pkbuf := s.pkbufWith v, pkbits := s.pkbits + 1 } := if_neg h

@[simp] theorem put_cfg (v : Bool) : (s.put v).cfg = s.cfg := by unfold State.put; split <;> rfl
@[simp] theorem put_pend (v : Bool) : (s.put v).pend = s.pend := by unfold State.put; split <;> rfl
@[simp] theorem put_phase (v : Bool) : (s.put v).phase = s.phase := by unfold State.put; split <;> rfl
@[simp] theorem put_err (v : Bool) : (s.put v).err = s.err := by unfold State.put; split <;> rfl
@[simp] theorem put_donecnt (v : Bool) : (s.put v).donecnt = s.donecnt := by unfold State.put; split <;> rfl
@[simp] theorem put_res0 (v : Bool) : (s.put v).res0 = s.res0 := by unfold State.put; split <;> rfl
@[simp] theorem put_res1 (v : Bool) : (s.put v).res1 = s.res1 := by unfold State.put; split <;> rfl
@[simp] theorem put_res2 (v : Bool) : (s.put v).res2 = s.res2 := by unfold State.put; split <;> rfl
@[simp] theorem put_res3 (v : Bool) : (s.put v).res3 = s.res3 := by unfold State.put; split <;> rfl
@[simp] theorem put_cnt (v : Bool) : (s.put v).cnt = s.cnt := by unfold State.put; split <;> rfl
@[simp] theorem put_nsym (v : Bool) : (s.put v).nsym = s.nsym := by unfold State.put; split <;> rfl
@[simp] theorem put_total (v : Bool) : (s.put v).total = s.total := by unfold State.put; split <;> rfl
@[simp] theorem put_pkopen (v : Bool) : (s.put v).pkopen = s.pkopen := by unfold State.put; split <;> rfl
@[simp] theorem put_sticky (v : Bool) : (s.put v).sticky = s.sticky := by unfold State.put; split <;> rfl
@[simp] theorem put_turns (v : Bool) : (s.put v).turns = s.turns := by unfold State.put; split <;> rfl
@[simp] theorem put_reply (v : Bool) : (s.put v).reply = s.reply := by unfold State.put; split <;> rfl

/-! ### putAll: the same for a list of bits -/

@[simp] theorem putAll_nil : s.putAll [] = s := rfl

@[simp] theorem putAll_cons (v : Bool) (vs : List Bool) :
    s.putAll (v :: vs) = (s.put v).putAll vs := rfl

@[simp] theorem putAll_cfg (vs : List Bool) : (s.putAll vs).cfg = s.cfg := by
  induction vs generalizing s with
  | nil => rfl
  | cons v vs ih => simp [ih]
@[simp] theorem putAll_pend (vs : List Bool) : (s.putAll vs).pend = s.pend := by
  induction vs generalizing s with
  | nil => rfl
  | cons v vs ih => simp [ih]
@[simp] theorem putAll_phase (vs : List Bool) : (s.putAll vs).phase = s.phase := by
  induction vs generalizing s with
  | nil => rfl
  | cons v vs ih => simp [ih]
@[simp] theorem putAll_err (vs : List Bool) : (s.putAll vs).err = s.err := by
  induction vs generalizing s with
  | nil => rfl
  | cons v vs ih => simp [ih]
@[simp] theorem putAll_donecnt (vs : List Bool) : (s.putAll vs).donecnt = s.donecnt := by
  induction vs generalizing s with
  | nil => rfl
  | cons v vs ih => simp [ih]
@[simp] theorem putAll_res0 (vs : List Bool) : (s.putAll vs).res0 = s.res0 := by
  induction vs generalizing s with
  | nil => rfl
  | cons v vs ih => simp [ih]
@[simp] theorem putAll_res1 (vs : List Bool) : (s.putAll vs).res1 = s.res1 := by
  induction vs generalizing s with
  | nil => rfl
  | cons v vs ih => simp [ih]
@[simp] theorem putAll_res2 (vs : List Bool) : (s.putAll vs).res2 = s.res2 := by
  induction vs generalizing s with
  | nil => rfl
  | cons v vs ih => simp [ih]
@[simp] theorem putAll_res3 (vs : List Bool) : (s.putAll vs).res3 = s.res3 := by
  induction vs generalizing s with
  | nil => rfl
  | cons v vs ih => simp [ih]
@[simp] theorem putAll_cnt (vs : List Bool) : (s.putAll vs).cnt = s.cnt := by
  induction vs generalizing s with
  | nil => rfl
  | cons v vs ih => simp [ih]
@[simp] theorem putAll_nsym (vs : List Bool) : (s.putAll vs).nsym = s.nsym := by
  induction vs generalizing s with
  | nil => rfl
  | cons v vs ih => simp [ih]
@[simp] theorem putAll_total (vs : List Bool) : (s.putAll vs).total = s.total := by
  induction vs generalizing s with
  | nil => rfl
  | cons v vs ih => simp [ih]
@[simp] theorem putAll_pkopen (vs : List Bool) : (s.putAll vs).pkopen = s.pkopen := by
  induction vs generalizing s with
  | nil => rfl
  | cons v vs ih => simp [ih]
@[simp] theorem putAll_sticky (vs : List Bool) : (s.putAll vs).sticky = s.sticky := by
  induction vs generalizing s with
  | nil => rfl
  | cons v vs ih => simp [ih]
@[simp] theorem putAll_turns (vs : List Bool) : (s.putAll vs).turns = s.turns := by
  induction vs generalizing s with
  | nil => rfl
  | cons v vs ih => simp [ih]
@[simp] theorem putAll_reply (vs : List Bool) : (s.putAll vs).reply = s.reply := by
  induction vs generalizing s with
  | nil => rfl
  | cons v vs ih => simp [ih]

/-! ### turnTaken: The next turn taken (R70). -/

@[simp] theorem turnTaken_cfg : s.turnTaken.cfg = s.cfg := rfl
@[simp] theorem turnTaken_pend : s.turnTaken.pend = s.pend := rfl
@[simp] theorem turnTaken_phase : s.turnTaken.phase = s.phase := rfl
@[simp] theorem turnTaken_err : s.turnTaken.err = s.err := rfl
@[simp] theorem turnTaken_donecnt : s.turnTaken.donecnt = s.donecnt := rfl
@[simp] theorem turnTaken_res0 : s.turnTaken.res0 = s.res0 := rfl
@[simp] theorem turnTaken_res1 : s.turnTaken.res1 = s.res1 := rfl
@[simp] theorem turnTaken_res2 : s.turnTaken.res2 = s.res2 := rfl
@[simp] theorem turnTaken_res3 : s.turnTaken.res3 = s.res3 := rfl
@[simp] theorem turnTaken_cnt : s.turnTaken.cnt = s.cnt := rfl
@[simp] theorem turnTaken_nsym : s.turnTaken.nsym = s.nsym := rfl
@[simp] theorem turnTaken_total : s.turnTaken.total = s.total := rfl
@[simp] theorem turnTaken_pkopen : s.turnTaken.pkopen = s.pkopen := rfl
@[simp] theorem turnTaken_pkbuf : s.turnTaken.pkbuf = s.pkbuf := rfl
@[simp] theorem turnTaken_pkbits : s.turnTaken.pkbits = s.pkbits := rfl
@[simp] theorem turnTaken_bytesout : s.turnTaken.bytesout = s.bytesout := rfl
@[simp] theorem turnTaken_fifo : s.turnTaken.fifo = s.fifo := rfl
@[simp] theorem turnTaken_sticky : s.turnTaken.sticky = s.sticky := rfl
@[simp] theorem turnTaken_reply : s.turnTaken.reply = s.reply := rfl
@[simp] theorem turnTaken_turns : s.turnTaken.turns = s.turnsAfter := rfl

end Sys2Proof.Machine
end

