-- ==== Sys2Proof/Laws/Completion.lean ====
section
/-! SUPPORT. What the shared operations of a completion can do, said once: the checks, the two ways a
command completes (R186, R187), and the cases of a CORE step. -/

namespace Sys2Proof.Machine

@[simp] theorem require_pos {ok : Prop} [Decidable ok] (h : ok) (e : ErrCode) (s : State)
    (rest : Result) : require ok e s rest = rest := if_pos h

@[simp] theorem require_neg {ok : Prop} [Decidable ok] (h : ¬ ok) (e : ErrCode) (s : State)
    (rest : Result) : require ok e s rest = raise e s := if_neg h

@[simp] theorem raise_eq_next {e : ErrCode} {s t : State} :
    raise e s = .next t ↔ s.bookkeep e = t := by simp [raise]

@[simp] theorem finish_eq_next {s t : State} :
    finish s = .next t ↔ s.bookkeep .noError = t := by simp [finish]

/-- A check either fails with its error or lets the rest go on. -/
theorem require_next {ok : Prop} [Decidable ok] {e : ErrCode} {s t : State} {rest : Result}
    (h : require ok e s rest = .next t) :
    (¬ ok ∧ t = s.bookkeep e) ∨ (ok ∧ rest = .next t) := by
  by_cases hk : ok
  · rw [require_pos hk] at h
    exact .inr ⟨hk, h⟩
  · rw [require_neg hk] at h
    exact .inl ⟨hk, (raise_eq_next.1 h).symm⟩

theorem withStore_built {s : State} {t : NodeStore} (h : s.phase = .built t)
    (k : NodeStore → Result) : withStore s k = k t := by simp [withStore, h]

theorem withStore_counting {s : State} (h : s.phase = .counting) (k : NodeStore → Result) :
    withStore s k = raise .phase s := by simp [withStore, h]

/-- With a phase check: PHASE in COUNTING, else the command goes on with the store. -/
theorem withStore_next {s t : State} {k : NodeStore → Result} (h : withStore s k = .next t) :
    (s.phase = .counting ∧ t = s.bookkeep .phase) ∨
      ∃ store, s.phase = .built store ∧ k store = .next t := by
  unfold withStore at h
  split at h
  · next hp => exact .inl ⟨hp, (raise_eq_next.1 h).symm⟩
  · next store hp => exact .inr ⟨store, hp, h⟩

@[simp] theorem withValue_ok {α : Type} (a : α) (k : α → Result) : withValue (.ok a) k = k a := rfl

theorem withValue_next {α : Type} {x : Except Fault α} {k : α → Result} {t : State}
    (h : withValue x k = .next t) : ∃ a, x = .ok a ∧ k a = .next t := by
  cases x with
  | error f => simp [withValue] at h
  | ok a => exact ⟨a, rfl, h⟩

/-- What a command that completes without error has done before the bookkeeping (R186). -/
inductive Effect (s : State) : Instr → State → Prop where
  | nop : Effect s .nop s
  | clear : Effect s .clear s.clearInput
  | count {sym : Symbol} (hf : s.cfg.SymFits sym) (hp : s.phase = .counting)
      (ht : s.total ≠ s.cfg.fmax) : Effect s (.count sym) (s.countSymbol sym.toNat)
  | build {t : NodeStore} (hp : s.phase = .counting) (hn : s.nsym ≠ 0)
      (ht : buildStore s.cfg s.cnt = some t) :
      Effect s .build ({ s with phase := .built t }.setRes (BitVec.ofNat 32 t.root)
        (BitVec.ofNat 32 (makeLeaves s.cfg s.cnt).length) (BitVec.ofNat 32 t.nnodes) 0)
  | resolve {sym : Symbol} {t : NodeStore} {r : Option Bool} (hf : s.cfg.SymFits sym)
      (hp : s.phase = .built t) (hr : lookup t sym = .ok r) :
      Effect s (.resolve sym) (s.setRes (codeWord r) 0 0 0)
  | encode {sym : Symbol} {t : NodeStore} {b : Bool} (hf : s.cfg.SymFits sym)
      (hp : s.phase = .built t) (ho : s.pkopen = true) (hr : lookup t sym = .ok (some b))
      (hfull : ¬ s.FifoFull) : Effect s (.encode sym) (s.putAll (byteBits (bitByte b)))
  | putbit {b : Bool} (ho : s.pkopen = true) (hfull : ¬ (s.pkbits = 7 ∧ s.FifoFull)) :
      Effect s (.putbit b) (s.put b)
  | closeStream (ho : s.pkopen = true) (hfull : ¬ (s.pkbits ≠ 0 ∧ s.FifoFull)) :
      Effect s .closeStream { s.flush with pkopen := false }
  | openStream (ho : s.pkopen = false) :
      Effect s .openStream { s.emptyPacker with pkopen := true, bytesout := 0 }
  | getfreq {sym : Symbol} (hf : s.cfg.SymFits sym) :
      Effect s (.getfreq sym) (s.setRes (BitVec.ofNat 32 (s.cnt.read sym.toNat)) 0 0 0)
  | depth {t : NodeStore} {d : Nat} (hp : s.phase = .built t) (hd : treeDepth t = .ok d) :
      Effect s .depth (s.setRes (BitVec.ofNat 32 d) 0 0 0)
  | noderd {idx : BitVec 17} {t : NodeStore} {e : Node} (hp : s.phase = .built t)
      (hi : idx.toNat < t.nnodes) (he : t.entry? idx.toNat = some e) :
      Effect s (.noderd idx) (s.setRes (BitVec.ofNat 32 e.f) e.word (BitVec.ofNat 32 e.left)
        (BitVec.ofNat 32 e.right))

/-- The inversion of `exec`: a command that completes has raised an error and done nothing else, or
has had its effect, and then did the bookkeeping. -/
theorem exec_next {i : Instr} {s t : State} (h : exec i s = .next t) :
    (∃ e, e ≠ .noError ∧ t = s.bookkeep e) ∨
      ∃ u, Effect s i u ∧ t = u.bookkeep .noError := by
  cases i with
  | nop => exact .inr ⟨s, .nop, (finish_eq_next.1 h).symm⟩
  | clear => exact .inr ⟨_, .clear, (finish_eq_next.1 h).symm⟩
  | count sym =>
    rcases require_next h with ⟨-, h⟩ | ⟨hf, h⟩
    · exact .inl ⟨_, by decide, h⟩
    rcases require_next h with ⟨-, h⟩ | ⟨hp, h⟩
    · exact .inl ⟨_, by decide, h⟩
    rcases require_next h with ⟨-, h⟩ | ⟨ht, h⟩
    · exact .inl ⟨_, by decide, h⟩
    exact .inr ⟨_, .count hf hp ht, (finish_eq_next.1 h).symm⟩
  | build =>
    rcases require_next h with ⟨-, h⟩ | ⟨hp, h⟩
    · exact .inl ⟨_, by decide, h⟩
    rcases require_next h with ⟨-, h⟩ | ⟨hn, h⟩
    · exact .inl ⟨_, by decide, h⟩
    split at h
    · cases h
    · next store hs => exact .inr ⟨_, .build hp hn hs, (finish_eq_next.1 h).symm⟩
  | resolve sym =>
    rcases require_next h with ⟨-, h⟩ | ⟨hf, h⟩
    · exact .inl ⟨_, by decide, h⟩
    rcases withStore_next h with ⟨-, h⟩ | ⟨store, hp, h⟩
    · exact .inl ⟨_, by decide, h⟩
    obtain ⟨r, hr, h⟩ := withValue_next h
    exact .inr ⟨_, .resolve hf hp hr, (finish_eq_next.1 h).symm⟩
  | encode sym =>
    rcases require_next h with ⟨-, h⟩ | ⟨hf, h⟩
    · exact .inl ⟨_, by decide, h⟩
    rcases withStore_next h with ⟨-, h⟩ | ⟨store, hp, h⟩
    · exact .inl ⟨_, by decide, h⟩
    rcases require_next h with ⟨-, h⟩ | ⟨ho, h⟩
    · exact .inl ⟨_, by decide, h⟩
    obtain ⟨r, hr, h⟩ := withValue_next h
    cases r with
    | none => exact .inl ⟨_, by decide, (raise_eq_next.1 h).symm⟩
    | some b =>
      rcases require_next h with ⟨-, h⟩ | ⟨hfull, h⟩
      · exact .inl ⟨_, by decide, h⟩
      exact .inr ⟨_, .encode hf hp ho hr hfull, (finish_eq_next.1 h).symm⟩
  | putbit b =>
    rcases require_next h with ⟨-, h⟩ | ⟨ho, h⟩
    · exact .inl ⟨_, by decide, h⟩
    rcases require_next h with ⟨-, h⟩ | ⟨hfull, h⟩
    · exact .inl ⟨_, by decide, h⟩
    exact .inr ⟨_, .putbit ho hfull, (finish_eq_next.1 h).symm⟩
  | closeStream =>
    rcases require_next h with ⟨-, h⟩ | ⟨ho, h⟩
    · exact .inl ⟨_, by decide, h⟩
    rcases require_next h with ⟨-, h⟩ | ⟨hfull, h⟩
    · exact .inl ⟨_, by decide, h⟩
    exact .inr ⟨_, .closeStream ho hfull, (finish_eq_next.1 h).symm⟩
  | openStream =>
    rcases require_next h with ⟨-, h⟩ | ⟨ho, h⟩
    · exact .inl ⟨_, by decide, h⟩
    exact .inr ⟨_, .openStream ho, (finish_eq_next.1 h).symm⟩
  | getfreq sym =>
    rcases require_next h with ⟨-, h⟩ | ⟨hf, h⟩
    · exact .inl ⟨_, by decide, h⟩
    exact .inr ⟨_, .getfreq hf, (finish_eq_next.1 h).symm⟩
  | depth =>
    rcases withStore_next h with ⟨-, h⟩ | ⟨store, hp, h⟩
    · exact .inl ⟨_, by decide, h⟩
    obtain ⟨d, hd, h⟩ := withValue_next h
    exact .inr ⟨_, .depth hp hd, (finish_eq_next.1 h).symm⟩
  | noderd idx =>
    rcases withStore_next h with ⟨-, h⟩ | ⟨store, hp, h⟩
    · exact .inl ⟨_, by decide, h⟩
    rcases require_next h with ⟨-, h⟩ | ⟨hi, h⟩
    · exact .inl ⟨_, by decide, h⟩
    obtain ⟨e, he, h⟩ := withValue_next h
    have he' : store.entry? idx.toNat = some e := by
      unfold readEntry at he; split at he <;> simp_all
    exact .inr ⟨_, .noderd hp hi he', (finish_eq_next.1 h).symm⟩

/-- The inversion of a CORE step: idle, a rejected word, or a decoded command. -/
theorem coreStep_next {s t : State} (h : coreStep s = .next t) :
    (s.pend = none ∧ t = s) ∨
      (∃ w e, s.pend = some w ∧ e ≠ .noError ∧ t = s.bookkeep e) ∨
      ∃ w i u, s.pend = some w ∧ decode s.cfg w = .cmd i ∧ Effect s i u ∧
        t = u.bookkeep .noError := by
  unfold coreStep at h
  split at h
  · next hp => exact .inl ⟨hp, by simpa [eq_comm] using h⟩
  · next w hp =>
    refine .inr ?_
    unfold completeWord at h
    split at h
    · next i hi =>
      rcases exec_next h with ⟨e, he, ht⟩ | ⟨u, hu, ht⟩
      · exact .inl ⟨w, e, hp, he, ht⟩
      · exact .inr ⟨w, i, u, hp, hi, hu, ht⟩
    · exact .inl ⟨w, .operand, hp, by decide, (raise_eq_next.1 h).symm⟩
    · exact .inl ⟨w, .opcode, hp, by decide, (raise_eq_next.1 h).symm⟩

end Sys2Proof.Machine
end

