-- ==== Sys2Proof/Laws/Decode.lean ====
section
/-! SUPPORT. The laws of the encoding tables: OPC and OPND of a word put together from them, and the
rows of R92 found by their opcode. -/

namespace Sys2Proof

@[simp] theorem opcField_append (b : BitVec 8) (o : BitVec 24) : opcField (b ++ o) = b :=
  BitVec.extractLsb'_append_eq_left

@[simp] theorem opndField_append (b : BitVec 8) (o : BitVec 24) : opndField (b ++ o) = o :=
  BitVec.extractLsb'_append_eq_right

/-- A word is its OPC and its OPND (R90). -/
theorem opc_append_opnd (w : Word) : opcField w ++ opndField w = w := by
  unfold opcField opndField
  ext i hi
  simp only [BitVec.getElem_append, BitVec.getElem_extractLsb']
  split
  · rw [Nat.zero_add]; exact BitVec.getLsbD_eq_getElem hi
  · rw [show 24 + (i - 24) = i by omega]; exact BitVec.getLsbD_eq_getElem hi

/-- Every row of R92 is found by its opcode. -/
@[simp] theorem ofBits?_bits (op : Opcode) : Opcode.ofBits? op.bits = some op := by
  cases op <;> rfl

/-- The row found has the opcode looked for. -/
theorem bits_of_ofBits? {b : BitVec 8} {op : Opcode} (h : Opcode.ofBits? b = some op) :
    op.bits = b := by simpa using List.find?_some h

/-- An opcode has a row exactly where R92 assigns it, 0x00 to 0x0B. -/
theorem ofBits?_eq_none_iff (b : BitVec 8) : Opcode.ofBits? b = none ↔ 0x0B < b.toNat := by
  revert b; decide

/-- Decoding a word put together from a row's opcode and an operand. -/
theorem decode_append (c : Config) (op : Opcode) (o : BitVec 24) :
    decode c (op.bits ++ o) =
      if op.kind.check c o then .cmd (op.command o) else .badOperand op := by
  simp [decode]

end Sys2Proof
end

