-- ==== Sys2Proof/Laws/FreqTable.lean ====
section
/-! SUPPORT. The laws of the frequency table CNT: read after write, the canonical form, and how COUNT's
write changes the number of entries and their sum (R41, R48). -/

namespace Sys2Proof.Machine.FreqTable

theorem wf_nil : FreqTable.Wf [] := ⟨List.Pairwise.nil, by simp⟩

theorem wf_tail {p : Nat × Nat} {t : FreqTable} (h : FreqTable.Wf (p :: t)) : t.Wf :=
  ⟨(List.pairwise_cons.1 h.1).2, fun q hq => h.2 q (List.mem_cons_of_mem _ hq)⟩

theorem wf_head_lt {p : Nat × Nat} {t : FreqTable} (h : FreqTable.Wf (p :: t)) :
    ∀ q ∈ t, p.1 < q.1 := (List.pairwise_cons.1 h.1).1

/-- A symbol below every listed one is not listed. -/
theorem read_eq_zero_of_lt {t : FreqTable} {s : Nat} (h : ∀ q ∈ t, s < q.1) : t.read s = 0 := by
  induction t with
  | nil => rfl
  | cons p t ih =>
    have hp : s < p.1 := h p (by simp)
    have : p.1 ≠ s := by omega
    simp only [FreqTable.read, this, if_false]
    exact ih fun q hq => h q (List.mem_cons_of_mem _ hq)

/-- Reading a symbol just written gives the count written (a positive one, as COUNT's is). -/
theorem read_write_same (t : FreqTable) (s : Nat) {n : Nat} (hn : 0 < n) :
    (t.write s n).read s = n := by
  have hn0 : n ≠ 0 := by omega
  induction t with
  | nil => simp [FreqTable.write, FreqTable.read, hn0]
  | cons p t ih =>
    obtain ⟨k, v⟩ := p
    simp only [FreqTable.write, hn0, if_false]
    split
    · simp [FreqTable.read]
    · split
      · simp [FreqTable.read]
      · have : k ≠ s := fun h => by simp_all
        simpa [FreqTable.read, this] using ih

/-- Writing a positive count leaves every other symbol's count alone. -/
theorem read_write_other (t : FreqTable) {s x : Nat} (hx : x ≠ s) {n : Nat} (hn : 0 < n) :
    (t.write s n).read x = t.read x := by
  have hn0 : n ≠ 0 := by omega
  have hsx : s ≠ x := fun h => hx h.symm
  induction t with
  | nil => simp [FreqTable.write, FreqTable.read, hn0, hsx]
  | cons p t ih =>
    obtain ⟨k, v⟩ := p
    simp only [FreqTable.write, hn0, if_false]
    split
    · simp [FreqTable.read, hsx]
    · split
      · next h => subst h; simp [FreqTable.read, hsx]
      · simp only [FreqTable.read]; split <;> simp_all

/-- The entries after a write are old ones or the one written. -/
theorem mem_write {t : FreqTable} {s n : Nat} {q : Nat × Nat} (hq : q ∈ t.write s n) :
    (q = (s, n) ∧ n ≠ 0) ∨ q ∈ t := by
  induction t with
  | nil =>
    simp only [FreqTable.write] at hq
    split at hq <;> simp_all
  | cons p t ih =>
    obtain ⟨k, v⟩ := p
    simp only [FreqTable.write] at hq
    split at hq
    · split at hq
      · exact .inr hq
      · rcases List.mem_cons.1 hq with h | h
        · exact .inl ⟨h, by assumption⟩
        · exact .inr h
    · split at hq
      · split at hq
        · exact .inr (List.mem_cons_of_mem _ hq)
        · rcases List.mem_cons.1 hq with h | h
          · exact .inl ⟨h, by assumption⟩
          · exact .inr (List.mem_cons_of_mem _ h)
      · rcases List.mem_cons.1 hq with h | h
        · exact .inr (h ▸ List.mem_cons_self)
        · exact (ih h).imp id (List.mem_cons_of_mem _)

/-- Every write keeps the canonical form. -/
theorem wf_write {t : FreqTable} (h : t.Wf) (s n : Nat) : (t.write s n).Wf := by
  induction t with
  | nil =>
    simp only [FreqTable.write]
    split
    · exact wf_nil
    · exact ⟨List.pairwise_singleton _ _, by simp; omega⟩
  | cons p t ih =>
    obtain ⟨k, v⟩ := p
    have hlt := wf_head_lt h
    simp only [FreqTable.write]
    split
    · next hsk =>
      split
      · exact h
      · refine ⟨List.pairwise_cons.2 ⟨?_, h.1⟩, ?_⟩
        · intro q hq
          rcases List.mem_cons.1 hq with h' | h'
          · subst h'; exact hsk
          · exact Nat.lt_trans hsk (hlt q h')
        · intro q hq
          rcases List.mem_cons.1 hq with h' | h'
          · subst h'; simp only; omega
          · exact h.2 q h'
    · split
      · next hsk =>
        subst hsk
        split
        · exact wf_tail h
        · refine ⟨List.pairwise_cons.2 ⟨hlt, (wf_tail h).1⟩, ?_⟩
          intro q hq
          rcases List.mem_cons.1 hq with h' | h'
          · subst h'; simp only; omega
          · exact (wf_tail h).2 q h'
      · next h1 h2 =>
        have ihw := ih (wf_tail h)
        refine ⟨List.pairwise_cons.2 ⟨?_, ihw.1⟩, ?_⟩
        · intro q hq
          rcases mem_write hq with ⟨h', -⟩ | h'
          · subst h'; simp only; omega
          · exact hlt q h'
        · intro q hq
          rcases List.mem_cons.1 hq with h' | h'
          · subst h'; exact h.2 _ List.mem_cons_self
          · exact ihw.2 q h'

/-- A listed symbol of a canonical table is read as its count. -/
theorem read_eq_of_mem {t : FreqTable} (h : t.Wf) {q : Nat × Nat} (hq : q ∈ t) :
    t.read q.1 = q.2 := by
  induction t with
  | nil => simp at hq
  | cons p t ih =>
    rcases List.mem_cons.1 hq with h' | h'
    · subst h'; simp [FreqTable.read]
    · have : p.1 ≠ q.1 := Nat.ne_of_lt (wf_head_lt h q h')
      simpa [FreqTable.read, this] using ih (wf_tail h) h'

/-- A symbol with a positive count is listed with it. -/
theorem mem_of_read_pos {t : FreqTable} {s : Nat} (h : 0 < t.read s) : (s, t.read s) ∈ t := by
  induction t with
  | nil => simp [FreqTable.read] at h
  | cons p t ih =>
    obtain ⟨k, v⟩ := p
    by_cases hk : k = s
    · subst hk; simp [FreqTable.read]
    · simp only [FreqTable.read, hk, if_false] at h ⊢
      exact List.mem_cons_of_mem _ (ih h)

/-- COUNT adds an entry exactly for a symbol not in the table (R110). -/
theorem length_write_succ {t : FreqTable} (h : t.Wf) (s : Nat) :
    (t.write s (t.read s + 1)).length = if t.read s = 0 then t.length + 1 else t.length := by
  induction t with
  | nil => simp [FreqTable.write, FreqTable.read]
  | cons p t ih =>
    obtain ⟨k, v⟩ := p
    have hv : 0 < v := h.2 (k, v) List.mem_cons_self
    have hlt : ∀ q ∈ t, k < q.1 := wf_head_lt h
    by_cases h1 : s < k
    · have hz : FreqTable.read ((k, v) :: t) s = 0 := by
        apply read_eq_zero_of_lt
        intro q hq
        rcases List.mem_cons.1 hq with h' | h'
        · subst h'; exact h1
        · exact Nat.lt_trans h1 (hlt q h')
      simp [FreqTable.write, h1, hz]
    · by_cases h2 : s = k
      · subst h2
        have : v ≠ 0 := by omega
        simp [FreqTable.write, FreqTable.read, this]
      · have hks : k ≠ s := fun h' => h2 h'.symm
        have := ih (wf_tail h)
        simp only [FreqTable.write, FreqTable.read, h1, h2, hks, if_false, List.length_cons, this]
        split <;> rfl

/-- COUNT adds one to the sum of the counts (R110). -/
theorem sum_write_succ {t : FreqTable} (h : t.Wf) (s : Nat) :
    (t.write s (t.read s + 1)).sum = t.sum + 1 := by
  induction t with
  | nil => simp [FreqTable.write, FreqTable.read, FreqTable.sum]
  | cons p t ih =>
    obtain ⟨k, v⟩ := p
    have hlt : ∀ q ∈ t, k < q.1 := wf_head_lt h
    by_cases h1 : s < k
    · have hz : FreqTable.read ((k, v) :: t) s = 0 := by
        apply read_eq_zero_of_lt
        intro q hq
        rcases List.mem_cons.1 hq with h' | h'
        · subst h'; exact h1
        · exact Nat.lt_trans h1 (hlt q h')
      simp [FreqTable.write, h1, hz, FreqTable.sum]; omega
    · by_cases h2 : s = k
      · subst h2
        simp [FreqTable.write, FreqTable.read, FreqTable.sum]; omega
      · have hks : k ≠ s := fun h' => h2 h'.symm
        have := ih (wf_tail h)
        simp only [FreqTable.sum] at this ⊢
        simp only [FreqTable.write, FreqTable.read, h1, h2, hks, if_false, List.map_cons,
          List.sum_cons, this]
        omega

/-- Every count is at most the sum of the counts (R113). -/
theorem le_sum_of_mem {t : FreqTable} {q : Nat × Nat} (hq : q ∈ t) : q.2 ≤ t.sum :=
  List.le_sum_of_mem (List.mem_map_of_mem hq)

/-- Every count is at most the sum of the counts (R113). -/
theorem read_le_sum (t : FreqTable) (s : Nat) : t.read s ≤ t.sum := by
  by_cases h : 0 < t.read s
  · exact le_sum_of_mem (mem_of_read_pos h)
  · omega

end Sys2Proof.Machine.FreqTable
end

