-- ==== Sys2Proof/Laws/Step.lean ====
section
/-! SUPPORT. What a HOST access and a step can do, said once. -/

namespace Sys2Proof.Machine

/-- A HOST step that answers a next state: an access that does not reach HUFFCORE, or a defined one
with its effect and its answer recorded (R60, R62). -/
theorem hostStep_next {a : HostAccess} {s t : State} (h : hostStep a s = .next t) :
    (a.reaches s.cfg = false ∧ t = { s with reply := none }) ∨
      (a.reaches s.cfg = true ∧ a.isDefined s.cfg = true ∧
        t = { s.afterAccess a with reply := some (s.answer a) }) := by
  unfold hostStep at h
  by_cases hr : a.reaches s.cfg = true
  · rw [if_pos hr] at h
    by_cases hd : a.isDefined s.cfg = true
    · refine .inr ⟨hr, hd, ?_⟩
      cases hop : a.op with
      | read =>
        have ha : s.answer a = .data (s.readReg (Reg.ofAddress a.addr)) := by
          simp [State.answer, hd, hop]
        rw [ha] at h ⊢
        simpa [eq_comm] using h
      | write v =>
        have ha : s.answer a = .done := by simp [State.answer, hd, hop]
        rw [ha] at h ⊢
        simpa [eq_comm] using h
    · have ha : s.answer a = .busError := by simp [State.answer, hd]
      rw [ha] at h
      simp at h
  · rw [if_neg hr] at h
    exact .inl ⟨by simpa using hr, by simpa [eq_comm] using h⟩

/-- A HOST step stops exactly on an access that reaches HUFFCORE and is not defined (R62). -/
theorem hostStep_defined {a : HostAccess} {s : State}
    (h : a.reaches s.cfg = true → a.isDefined s.cfg = true) : ∃ t, hostStep a s = .next t := by
  unfold hostStep
  split
  · next hr =>
    have hd := h hr
    cases hop : a.op <;> simp [State.answer, hd, hop]
  · exact ⟨_, rfl⟩

/-! ### Whose step it is -/

@[simp] theorem act_nil {s : State} (h : s.turns = []) : s.act = .core := by simp [State.act, h]

@[simp] theorem act_host {s : State} {a : HostAccess} {rest : List Turn}
    (h : s.turns = .host a :: rest) : s.act = .host a := by simp [State.act, h]

@[simp] theorem act_core {s : State} {rest : List Turn} (h : s.turns = .core :: rest) :
    s.act = .core := by simp [State.act, h]

@[simp] theorem act_reset {s : State} {rest : List Turn} (h : s.turns = .reset :: rest) :
    s.act = .reset := by simp [State.act, h]

/-- Inside a loop the CORE has its turn exactly when the completion is due. -/
theorem act_loop {s : State} {l : HostLoop} {rest : List Turn} (h : s.turns = .loop l :: rest) :
    s.act = if s.coreDue l then .core else .host (.rd s.cfg l.reg) := by simp [State.act, h]

@[simp] theorem turnsAfter_nil {s : State} (h : s.turns = []) : s.turnsAfter = [] := by
  simp [State.turnsAfter, h]

/-- A turn that is one step is gone after it. -/
theorem turnsAfter_single {s : State} {x : Turn} {rest : List Turn} (h : s.turns = x :: rest)
    (hx : x.single = true) : s.turnsAfter = rest := by
  cases x <;> simp_all [State.turnsAfter, Turn.single]

/-- A loop stays through the completion, ends by a read that returns its bit, and stays otherwise. -/
theorem turnsAfter_loop {s : State} {l : HostLoop} {rest : List Turn}
    (h : s.turns = .loop l :: rest) :
    s.turnsAfter = if s.coreDue l then .loop l :: rest
      else if s.loopEnds l then rest else .loop (l.polled s.busy) :: rest := by
  simp [State.turnsAfter, h]

/-- A reset comes only from a turn of its own. -/
theorem turns_of_resetNext {s : State} (h : s.ResetNext) : s.turns = .reset :: s.turns.tail := by
  unfold State.ResetNext State.act at h
  split at h <;> first | (split at h <;> cases h) | simp_all

/-- The step of each kind. -/
theorem step_core {s : State} (h : s.CoreNext) : step s = coreStep s.turnTaken := by
  simp [step, h]

theorem step_host {s : State} {a : HostAccess} (h : s.HostNext a) :
    step s = hostStep a s.turnTaken := by simp [step, h]

theorem step_reset {s : State} (h : s.ResetNext) : step s = .next s.turnTaken.resetNow := by
  simp [step, h]

/-- The cases of a step: the CORE's turn, the HOST's, a reset (R70, R215). -/
theorem step_next {s t : State} (h : step s = .next t) :
    (s.CoreNext ∧ coreStep s.turnTaken = .next t) ∨
      (∃ a, s.HostNext a ∧ hostStep a s.turnTaken = .next t) ∨
      (s.ResetNext ∧ t = s.turnTaken.resetNow) := by
  cases ha : s.act with
  | core => exact .inl ⟨ha, by rw [step_core ha] at h; exact h⟩
  | host a => exact .inr (.inl ⟨a, ha, by rw [step_host ha] at h; exact h⟩)
  | reset => exact .inr (.inr ⟨ha, by rw [step_reset ha] at h; simpa [eq_comm] using h⟩)

/-! ### The window -/

/-- The address of a register selects it (R60). -/
theorem ofAddress_offset {c : Config} (h : c.Legal) (r : Reg) :
    Reg.ofAddress (c.huffBase + r.offset) = r := by
  obtain ⟨m, hm⟩ : ∃ m, c.huffBase = 64 * m := ⟨c.huffBase / 64, by have := h.2.2.2; omega⟩
  have key : (c.huffBase + r.offset) / 4 % 16 = Reg.all.idxOf r := by
    have : Reg.all.idxOf r < 16 := by cases r <;> decide
    simp only [Reg.offset]; omega
  unfold Reg.ofAddress
  rw [key]
  cases r <;> rfl

theorem rd_isDefined {c : Config} (h : c.Legal) (r : Reg) :
    (HostAccess.rd c r).isDefined c = true := by
  have hr : Reg.all.idxOf r < 16 := by cases r <;> decide
  have := h.2.2.2
  simp only [HostAccess.isDefined, HostAccess.rd, Reg.offset, Bool.and_eq_true, and_true, true_and,
    decide_true]
  refine ⟨?_, ?_, ?_⟩ <;> apply decide_eq_true <;> omega

theorem wr_isDefined {c : Config} (h : c.Legal) (r : Reg) (v : Word) :
    (HostAccess.wr c r v).isDefined c = true := rd_isDefined h r

/-- A defined access reaches HUFFCORE: it lies in the window. -/
theorem reaches_of_isDefined {a : HostAccess} {c : Config} (h : a.isDefined c = true) :
    a.reaches c = true := by
  simp only [HostAccess.isDefined, Bool.and_eq_true, decide_eq_true_eq] at h
  simp only [HostAccess.reaches, Bool.and_eq_true, decide_eq_true_eq]
  omega

/-- `rd r` returns the register's value and leaves `afterRead`. -/
theorem hostStep_rd {s : State} (h : s.cfg.Legal) (r : Reg) :
    hostStep (.rd s.cfg r) s =
      .next { s.afterRead r with reply := some (.data (s.readReg r)) } := by
  have hd := rd_isDefined h r
  have ha : (HostAccess.rd s.cfg r).addr = s.cfg.huffBase + r.offset := rfl
  unfold hostStep
  rw [if_pos (reaches_of_isDefined hd)]
  simp only [State.answer, State.afterAccess, hd, if_true, ha, ofAddress_offset h]
  simp [HostAccess.rd]

/-- `wr r, v` leaves `afterWrite`. -/
theorem hostStep_wr {s : State} (h : s.cfg.Legal) (r : Reg) (v : Word) :
    hostStep (.wr s.cfg r v) s = .next { s.afterWrite v r with reply := some .done } := by
  have hd := wr_isDefined h r v
  have ha : (HostAccess.wr s.cfg r v).addr = s.cfg.huffBase + r.offset := rfl
  unfold hostStep
  rw [if_pos (reaches_of_isDefined hd)]
  simp only [State.answer, State.afterAccess, hd, if_true, ha, ofAddress_offset h]
  simp [HostAccess.wr]

/-- A step that is `rd r`, on its own or inside a loop. -/
theorem step_rd {s : State} (h : s.cfg.Legal) {r : Reg} (hn : s.HostNext (.rd s.cfg r)) :
    step s = .next { s.turnTaken.afterRead r with
      reply := some (.data (s.turnTaken.readReg r)) } := by
  rw [step_host hn]
  exact hostStep_rd (s := s.turnTaken) h r

/-- A step that is `wr r, v`. -/
theorem step_wr {s : State} (h : s.cfg.Legal) {r : Reg} {v : Word}
    (hn : s.HostNext (.wr s.cfg r v)) :
    step s = .next { s.turnTaken.afterWrite v r with reply := some .done } := by
  rw [step_host hn]
  exact hostStep_wr (s := s.turnTaken) h r v

/-- A run whose first step answers `t` goes on from `t`. -/
theorem run_succ {s t : State} (h : step s = .next t) (k : Nat) :
    core.run (k + 1) s = core.run k t := by
  simp only [Host.Core.run]
  rw [show core.step s = .next t from h]

@[simp] theorem run_zero (s : State) : core.run 0 s = .next s := rfl

/-- What a HOST access changes at most: PEND, STICKY, the FIFO and the record of the answer. -/
theorem afterAccess_frame (s : State) (a : HostAccess) :
    s.afterAccess a = { s with
      pend := (s.afterAccess a).pend
      sticky := (s.afterAccess a).sticky
      fifo := (s.afterAccess a).fifo } := by
  unfold State.afterAccess
  split
  · cases a.op with
    | read => cases Reg.ofAddress a.addr <;> rfl
    | write v =>
      cases Reg.ofAddress a.addr <;> try rfl
      simp only [State.afterWrite, State.offer]; split <;> rfl
  · rfl

end Sys2Proof.Machine
end

