-- ==== Sys2Proof/Laws/HostTurns.lean ====
section
/-! SUPPORT. A completion neither reads nor writes the turns to come and the record of the latest
answer. -/

namespace Sys2Proof.Machine

/-- `s` with other turns to come and another latest answer. -/
def State.withHost (s : State) (l : List Turn) (r : Option Reply) : State :=
  { s with turns := l, reply := r }

variable (s : State) (l : List Turn) (r : Option Reply)

theorem put_withHost (v : Bool) : (s.withHost l r).put v = (s.put v).withHost l r := by
  unfold State.put
  rw [show (s.withHost l r).pkbits = s.pkbits from rfl]
  split <;> rfl

theorem putAll_withHost (bits : List Bool) :
    (s.withHost l r).putAll bits = (s.putAll bits).withHost l r := by
  induction bits generalizing s with
  | nil => rfl
  | cons v rest ih =>
    simp only [State.putAll, List.foldl_cons] at ih ⊢
    rw [put_withHost, ih]

theorem flush_withHost : (s.withHost l r).flush = s.flush.withHost l r := by
  unfold State.flush
  rw [show (s.withHost l r).pkbits = s.pkbits from rfl]
  split <;> rfl

/-- A check gives the same with other turns. -/
theorem require_withHost {ok : Prop} [Decidable ok] {e : ErrCode} {s t : State} {x y : Result}
    (l : List Turn) (r : Option Reply)
    (h : require ok e s x = .next t) (hk : x = .next t → y = .next (t.withHost l r)) :
    require ok e (s.withHost l r) y = .next (t.withHost l r) := by
  rcases require_next h with ⟨hn, rfl⟩ | ⟨hp, hx⟩
  · rw [require_neg hn]; rfl
  · rw [require_pos hp]; exact hk hx

/-- An effect that commutes with the HOST's fields does so as a completion. -/
theorem finish_withHost {t u v : State} (l : List Turn) (r : Option Reply)
    (h : finish u = .next t) (hv : v = u.withHost l r) :
    finish v = .next (t.withHost l r) := by
  subst hv; obtain rfl := finish_eq_next.1 h; rfl

/-- The node store is the same with other turns. -/
theorem withStore_withHost {s t : State} {k k' : NodeStore → Result}
    (l : List Turn) (r : Option Reply)
    (h : withStore s k = .next t) (hk : ∀ st, k st = .next t → k' st = .next (t.withHost l r)) :
    withStore (s.withHost l r) k' = .next (t.withHost l r) := by
  rcases withStore_next h with ⟨hp, rfl⟩ | ⟨st, hp, hx⟩
  · rw [withStore_counting (s := s.withHost l r) hp]; rfl
  · rw [withStore_built (s := s.withHost l r) hp]; exact hk st hx

/-- So is the value of a read of it. -/
theorem withValue_withHost {α : Type} {x : Except Fault α} {t : State} {k k' : α → Result}
    (l : List Turn) (r : Option Reply)
    (h : withValue x k = .next t) (hk : ∀ a, k a = .next t → k' a = .next (t.withHost l r)) :
    withValue x k' = .next (t.withHost l r) := by
  obtain ⟨a, rfl, hx⟩ := withValue_next h
  exact hk a hx

/-- The next state of `exec` with other turns is the next state with those turns. -/
theorem exec_withHost (l : List Turn) (r : Option Reply) {i : Instr} {s t : State} (h : exec i s = .next t) :
    exec i (s.withHost l r) = .next (t.withHost l r) := by
  cases i with
  | nop => exact finish_withHost l r h rfl
  | clear => exact finish_withHost l r h rfl
  | count sym =>
    exact require_withHost l r h fun h => require_withHost l r h fun h =>
      require_withHost l r h fun h => finish_withHost l r h rfl
  | build =>
    refine require_withHost l r h fun h => require_withHost l r h fun h => ?_
    rw [show (s.withHost l r).cfg = s.cfg from rfl, show (s.withHost l r).cnt = s.cnt from rfl]
    split at h
    · cases h
    · exact finish_withHost l r h rfl
  | resolve sym =>
    exact require_withHost l r h fun h => withStore_withHost l r h fun st h =>
      withValue_withHost l r h fun a h => finish_withHost l r h rfl
  | encode sym =>
    refine require_withHost l r h fun h => withStore_withHost l r h fun st h =>
      require_withHost l r h fun h => withValue_withHost l r h fun a h => ?_
    cases a with
    | none => obtain rfl := raise_eq_next.1 h; rfl
    | some b =>
      exact require_withHost l r h fun h => finish_withHost l r h (putAll_withHost ..)
  | putbit b =>
    exact require_withHost l r h fun h => require_withHost l r h fun h =>
      finish_withHost l r h (put_withHost ..)
  | closeStream =>
    refine require_withHost l r h fun h => require_withHost l r h fun h =>
      finish_withHost l r h ?_
    rw [flush_withHost]; rfl
  | openStream => exact require_withHost l r h fun h => finish_withHost l r h rfl
  | getfreq sym => exact require_withHost l r h fun h => finish_withHost l r h rfl
  | depth =>
    exact withStore_withHost l r h fun st h =>
      withValue_withHost l r h fun a h => finish_withHost l r h rfl
  | noderd idx =>
    exact withStore_withHost l r h fun st h => require_withHost l r h fun h =>
      withValue_withHost l r h fun a h => finish_withHost l r h rfl

theorem completeWord_withHost {w : Word} {s t : State} (h : completeWord w s = .next t) :
    completeWord w (s.withHost l r) = .next (t.withHost l r) := by
  unfold completeWord at h ⊢
  rw [show (s.withHost l r).cfg = s.cfg from rfl]
  split at h
  · exact exec_withHost l r h
  · obtain rfl := (raise_eq_next.1 h); rfl
  · obtain rfl := (raise_eq_next.1 h); rfl

end Sys2Proof.Machine
end

