-- ==== Sys2Proof/Laws/PerInstr.lean ====
section
/-! SUPPORT. Statements made for every command, one lemma per constructor. -/

namespace Sys2Proof.Laws.TableRow

/-- Column "match" of R92. -/
def matchWord : Opcode → Word
  | .nop => 0x00000000
  | .clear => 0x01000000
  | .count => 0x02000000
  | .build => 0x03000000
  | .resolve => 0x04000000
  | .encode => 0x05000000
  | .putbit => 0x06000000
  | .closeStream => 0x07000000
  | .openStream => 0x08000000
  | .getfreq => 0x09000000
  | .depth => 0x0A000000
  | .noderd => 0x0B000000

/-- Column "mask" of R92. -/
def maskWord : Opcode → Word
  | .nop | .clear | .build | .closeStream | .openStream | .depth => 0xFFFFFFFF
  | .count | .resolve | .encode | .putbit | .getfreq | .noderd => 0xFF000000

/-- The word of a command lies in its row of R92: its bits under the mask are the match. -/
def Statement (i : Instr) : Prop := encode i &&& maskWord i.opcode = matchWord i.opcode

/-- A word with OPC `b` keeps exactly `b` under the mask 0xFF000000. -/
theorem append_and_mask (b : BitVec 8) (o : BitVec 24) (m : Word) (h : b ++ 0#24 = m) :
    (b ++ o : Word) &&& 0xFF000000#32 = m := by
  subst h
  ext i hi
  have key : (0xFF000000#32)[i] = decide (24 ≤ i) := by
    revert hi; revert i; decide
  simp only [BitVec.getElem_and, BitVec.getElem_append, key]
  split <;> simp <;> omega

/-- The match of a row is its OPC with OPND = 0. -/
theorem bits_append (op : Opcode) : (op.bits ++ 0#24 : Word) = matchWord op := by
  cases op <;> decide

theorem nop : Statement .nop := rfl
theorem clear : Statement .clear := rfl
theorem count (sym : Symbol) : Statement (.count sym) := append_and_mask _ _ _ (bits_append _)
theorem build : Statement .build := rfl
theorem resolve (sym : Symbol) : Statement (.resolve sym) := append_and_mask _ _ _ (bits_append _)
theorem encode (sym : Symbol) : Statement (.encode sym) := append_and_mask _ _ _ (bits_append _)
theorem putbit (b : Bool) : Statement (.putbit b) := append_and_mask _ _ _ (bits_append _)
theorem closeStream : Statement .closeStream := rfl
theorem openStream : Statement .openStream := rfl
theorem getfreq (sym : Symbol) : Statement (.getfreq sym) := append_and_mask _ _ _ (bits_append _)
theorem depth : Statement .depth := rfl
theorem noderd (idx : BitVec 17) : Statement (.noderd idx) := append_and_mask _ _ _ (bits_append _)

end Sys2Proof.Laws.TableRow
end

