-- ==== Sys2Proof/Laws/TreeBuilder.lean ====
section
/-! SUPPORT. The laws of BUILD (R121 to R126): the leaves it makes, what one selection and one merge do,
the invariant of its loop, and the node store it ends with. -/

namespace Sys2Proof.Machine


/-! ### Leaves (R121) -/

/-- The symbols with a positive count, in ascending order, are the listed ones. -/
theorem keys_eq_filter_range {t : FreqTable} (h : t.Wf) {N : Nat} (hk : ∀ p ∈ t, p.1 < N) :
    (List.range N).filter (fun s => decide (0 < t.read s)) = t.map Prod.fst := by
  apply List.Pairwise.eq_of_mem_iff (r := (· < ·))
  · exact List.pairwise_lt_range.filter _
  · exact List.pairwise_map.2 h.1
  · intro a
    simp only [List.mem_filter, List.mem_range, decide_eq_true_eq, List.mem_map]
    constructor
    · rintro ⟨-, ha⟩
      exact ⟨_, FreqTable.mem_of_read_pos ha, rfl⟩
    · rintro ⟨p, hp, rfl⟩
      rw [FreqTable.read_eq_of_mem h hp]
      exact ⟨hk p hp, h.2 p hp⟩

/-- make_leaves creates one leaf per table entry, in the table's order. -/
theorem makeLeaves_eq_map {c : Config} {t : FreqTable} (h : t.Wf)
    (hk : ∀ p ∈ t, p.1 < c.nsymMax) :
    makeLeaves c t = t.map fun p => Node.newLeaf p.1 p.2 := by
  have h1 : makeLeaves c t = ((List.range c.nsymMax).filter
      (fun s => decide (0 < t.read s))).map fun s => Node.newLeaf s (t.read s) := by
    unfold makeLeaves
    generalize List.range c.nsymMax = l
    induction l with
    | nil => rfl
    | cons a l ih =>
      by_cases ha : 0 < t.read a <;> simp [ha, ih]
  rw [h1, keys_eq_filter_range h hk, List.map_map]
  apply List.map_congr_left
  intro p hp
  simp [FreqTable.read_eq_of_mem h hp]

/-! ### Writing a bit of a node (R124) -/

/-- What does not look at the assigned bit does not see it written. -/
theorem map_setNodeBit {β : Type} (g : Node → β) (hg : ∀ e v, g { e with bit := v } = g e)
    (nodes : List Node) (i : Nat) (v : Bool) : (setNodeBit nodes i v).map g = nodes.map g := by
  apply List.ext_getElem?
  intro j
  simp only [setNodeBit, List.getElem?_map, List.getElem?_modify]
  cases nodes[j]? with
  | none => rfl
  | some e => by_cases h : i = j <;> simp [h, hg]

@[simp] theorem length_setNodeBit (nodes : List Node) (i : Nat) (v : Bool) :
    (setNodeBit nodes i v).length = nodes.length := by simp [setNodeBit]

@[simp] theorem freqAt_setNodeBit (nodes : List Node) (i : Nat) (v : Bool) (j : Nat) :
    freqAt (setNodeBit nodes i v) j = freqAt nodes j := by
  simp only [freqAt, setNodeBit, List.getElem?_modify]
  cases nodes[j]? with
  | none => rfl
  | some e => by_cases h : i = j <;> simp [h]

/-! ### merge (R124) -/

@[simp] theorem length_merge (nodes : List Node) (c1 c2 : Nat) :
    (merge nodes c1 c2).length = nodes.length + 1 := by simp [merge]

/-- merge writes two bits and appends the parent; every other part of the old entries stays. -/
theorem map_merge {β : Type} (g : Node → β) (hg : ∀ e v, g { e with bit := v } = g e)
    (nodes : List Node) (c1 c2 : Nat) :
    (merge nodes c1 c2).map g =
      nodes.map g ++ [g (Node.newParent (freqAt nodes c1 + freqAt nodes c2) c1 c2)] := by
  simp [merge, map_setNodeBit g hg]

theorem freqAt_merge_old {nodes : List Node} {c1 c2 j : Nat} (h : j < nodes.length) :
    freqAt (merge nodes c1 c2) j = freqAt nodes j := by
  have : (merge nodes c1 c2)[j]? = (setNodeBit (setNodeBit nodes c1 false) c2 true)[j]? := by
    unfold merge; rw [List.getElem?_append_left (by simpa using h)]
  calc freqAt (merge nodes c1 c2) j
      = freqAt (setNodeBit (setNodeBit nodes c1 false) c2 true) j := by simp only [freqAt, this]
    _ = freqAt nodes j := by simp

theorem getElem?_merge_new (nodes : List Node) (c1 c2 : Nat) :
    (merge nodes c1 c2)[nodes.length]? =
      some (Node.newParent (freqAt nodes c1 + freqAt nodes c2) c1 c2) := by
  unfold merge; rw [List.getElem?_append_right (by simp)]; simp

theorem freqAt_merge_new (nodes : List Node) (c1 c2 : Nat) :
    freqAt (merge nodes c1 c2) nodes.length = freqAt nodes c1 + freqAt nodes c2 := by
  conv_lhs => rw [freqAt, getElem?_merge_new]
  rfl

/-- An old entry after a merge: the candidates have their bits, the others are as before. -/
theorem getElem?_merge_old {nodes : List Node} {c1 c2 j : Nat} (hc : c1 ≠ c2)
    (h : j < nodes.length) :
    (merge nodes c1 c2)[j]? = nodes[j]?.map fun e =>
      if j = c1 then { e with bit := false } else if j = c2 then { e with bit := true } else e := by
  unfold merge
  rw [List.getElem?_append_left (by simpa using h)]
  simp only [setNodeBit, List.getElem?_modify]
  cases nodes[j]? with
  | none => rfl
  | some e =>
    by_cases h1 : j = c1
    · subst h1; simp [hc.symm]
    · by_cases h2 : j = c2
      · subst h2; simp [h1, hc]
      · have h1' : c1 ≠ j := fun h => h1 h.symm
        have h2' : c2 ≠ j := fun h => h2 h.symm
        simp [h1, h2, h1', h2']

/-! ### select (R123) -/

/-- The scan keeps its candidates among the elements it has seen, and different. -/
theorem foldl_scanStep_mem (nodes : List Node) (rest : List Nat) (c : Nat × Nat) (W : List Nat)
    (h1 : c.1 ∈ W) (h2 : c.2 ∈ W) (hr : ∀ v ∈ rest, v ∈ W)
    (hne : c.1 ≠ c.2) (hd : rest.Nodup) (hn : ∀ v ∈ rest, v ≠ c.1 ∧ v ≠ c.2) :
    let d := rest.foldl (scanStep nodes) c
    d.1 ∈ W ∧ d.2 ∈ W ∧ d.1 ≠ d.2 := by
  induction rest generalizing c with
  | nil => exact ⟨h1, h2, hne⟩
  | cons v rest ih =>
    obtain ⟨hv, hd⟩ := List.nodup_cons.1 hd
    have hvc := hn v (by simp)
    have hvW := hr v (by simp)
    have hr' : ∀ u ∈ rest, u ∈ W := fun u hu => hr u (by simp [hu])
    have hn' : ∀ u ∈ rest, u ≠ c.1 ∧ u ≠ c.2 := fun u hu => hn u (by simp [hu])
    have hvr : ∀ u ∈ rest, u ≠ v := fun u hu h => hv (h ▸ hu)
    simp only [List.foldl_cons]
    have : scanStep nodes c v = (v, c.1) ∨ scanStep nodes c v = (c.1, v) ∨
        scanStep nodes c v = c := by
      unfold scanStep; split
      · exact .inl rfl
      · split
        · exact .inr (.inl rfl)
        · exact .inr (.inr rfl)
    rcases this with h | h | h <;> rw [h]
    · exact ih (v, c.1) hvW h1 hr' hvc.1 hd fun u hu => ⟨hvr u hu, (hn' u hu).1⟩
    · exact ih (c.1, v) h1 hvW hr' (Ne.symm hvc.1) hd fun u hu => ⟨(hn' u hu).1, hvr u hu⟩
    · exact ih c h1 h2 hr' hne hd hn'

/-- select takes two different elements of W (R123: "c1 ≠ c2 always holds"). -/
theorem select_mem {nodes : List Node} {W : List Nat} (hW : W.Nodup) {c1 c2 : Nat}
    (h : select nodes W = some (c1, c2)) : c1 ∈ W ∧ c2 ∈ W ∧ c1 ≠ c2 := by
  unfold select at h
  split at h
  · next a b rest =>
    obtain ⟨ha, hW⟩ := List.nodup_cons.1 hW
    obtain ⟨hb, hrest⟩ := List.nodup_cons.1 hW
    have hab : a ≠ b := fun h => ha (h ▸ List.mem_cons_self)
    have := foldl_scanStep_mem nodes rest (a, b) (a :: b :: rest) (by simp) (by simp)
      (fun v hv => by simp [hv]) hab hrest
      (fun v hv => ⟨fun h => ha (by subst h; simp [hv]), fun h => hb (by subst h; exact hv)⟩)
    have h' : rest.foldl (scanStep nodes) (a, b) = (c1, c2) := by simpa using h
    simpa [h'] using this
  · cases h
  · cases h

/-- select answers exactly where W has two elements or more. -/
theorem select_isSome (nodes : List Node) (W : List Nat) :
    (select nodes W).isSome = decide (2 ≤ W.length) := by
  rcases W with _ | ⟨a, _ | ⟨b, rest⟩⟩ <;> simp [select]

/-- W is the two candidates and what R125 keeps. -/
theorem perm_filter_out {W : List Nat} (hW : W.Nodup) {c1 c2 : Nat} (h1 : c1 ∈ W) (h2 : c2 ∈ W)
    (hc : c1 ≠ c2) : W.Perm (c1 :: c2 :: W.filter fun i => i != c1 && i != c2) := by
  apply (List.perm_ext_iff_of_nodup hW _).2
  · intro a
    simp only [List.mem_cons, List.mem_filter, bne_iff_ne, Bool.and_eq_true]
    constructor
    · intro ha
      by_cases ha1 : a = c1
      · exact .inl ha1
      · by_cases ha2 : a = c2
        · exact .inr (.inl ha2)
        · exact .inr (.inr ⟨ha, ha1, ha2⟩)
    · rintro (rfl | rfl | h)
      · exact h1
      · exact h2
      · exact h.1
  · simp [hc, hW.filter]

/-! ### The loop (R120, R125) -/

/-- What the store under construction and the working list satisfy after every merge. `n` is the
number of leaves. -/
structure LoopInv (leaves nodes : List Node) (W : List Nat) : Prop where
  count : nodes.length + W.length = 2 * leaves.length
  le : leaves.length ≤ nodes.length
  /-- Every index is a child once or still in W. -/
  owned : (((nodes.drop leaves.length).flatMap fun e => [e.left, e.right]) ++ W).Perm
    (List.range nodes.length)
  leavesKept : (nodes.take leaves.length).map (fun e => (e.kind, e.sym, e.f, e.left, e.right)) =
    leaves.map (fun e => (e.kind, e.sym, e.f, e.left, e.right))
  internals : ∀ i < nodes.length, leaves.length ≤ i → ∀ e ∈ nodes[i]?,
    e.kind = .internal ∧ e.sym = 0 ∧ e.left < i ∧ e.right < i ∧
      e.f = freqAt nodes e.left + freqAt nodes e.right
  total : (W.map (freqAt nodes)).sum = (leaves.map Node.f).sum
  /-- Nodes still in W keep their default bit 0. -/
  unmarked : ∀ i ∈ W, ∀ e ∈ nodes[i]?, e.bit = false
  /-- A left child has bit 0 and a right child bit 1 (R124). -/
  marked : ∀ i < nodes.length, leaves.length ≤ i → ∀ e ∈ nodes[i]?,
    (∀ l ∈ nodes[e.left]?, l.bit = false) ∧ (∀ r ∈ nodes[e.right]?, r.bit = true)

theorem LoopInv.work_nodup {leaves nodes : List Node} {W : List Nat} (h : LoopInv leaves nodes W) :
    W.Nodup := by
  have := h.owned.nodup_iff.2 List.nodup_range
  exact (List.nodup_append.1 this).2.1

theorem LoopInv.work_lt {leaves nodes : List Node} {W : List Nat} (h : LoopInv leaves nodes W) :
    ∀ i ∈ W, i < nodes.length := fun i hi => by
  have := h.owned.mem_iff.1 (List.mem_append_right _ hi)
  simpa using this

/-- A child of an internal entry is no longer in W. -/
theorem LoopInv.child_not_work {leaves nodes : List Node} {W : List Nat}
    (h : LoopInv leaves nodes W) {i : Nat} {e : Node} (hi : leaves.length ≤ i)
    (he : nodes[i]? = some e) : e.left ∉ W ∧ e.right ∉ W := by
  have hnd := h.owned.nodup_iff.2 List.nodup_range
  have hdis := (List.nodup_append.1 hnd).2.2
  have hmem : e ∈ nodes.drop leaves.length := by
    apply List.mem_of_getElem? (i := i - leaves.length)
    rw [List.getElem?_drop]
    rwa [show leaves.length + (i - leaves.length) = i by omega]
  constructor
  · intro hl
    exact hdis _ (List.mem_flatMap.2 ⟨e, hmem, by simp⟩) _ hl rfl
  · intro hl
    exact hdis _ (List.mem_flatMap.2 ⟨e, hmem, by simp⟩) _ hl rfl

theorem loopInv_start (leaves : List Node)
    (hbit : ∀ e ∈ leaves, e.bit = false) :
    LoopInv leaves leaves (List.range leaves.length) where
  count := by simp; omega
  le := Nat.le_refl _
  owned := by simp
  leavesKept := by simp
  internals := fun i hi hle => by omega
  total := by
    congr 1
    apply List.ext_getElem?
    intro j
    simp only [List.getElem?_map]
    by_cases hj : j < leaves.length
    · simp [hj, freqAt]
    · simp [hj]
  unmarked := fun i _ e he => hbit e (List.mem_of_getElem? he)
  marked := fun i hi hle => by omega

theorem loopInv_merge {leaves nodes : List Node} {W : List Nat} (h : LoopInv leaves nodes W)
    {c1 c2 : Nat} (hs : select nodes W = some (c1, c2)) :
    LoopInv leaves (merge nodes c1 c2) (nextWork W c1 c2 nodes.length) := by
  obtain ⟨h1, h2, hc⟩ := select_mem h.work_nodup hs
  have hp := perm_filter_out h.work_nodup h1 h2 hc
  have l1 := h.work_lt _ h1
  have l2 := h.work_lt _ h2
  have hle := h.le
  have hlt : ∀ i ∈ W.filter (fun i => i != c1 && i != c2), i < nodes.length :=
    fun i hi => h.work_lt i (List.mem_filter.1 hi).1
  have hchildren : ((merge nodes c1 c2).drop leaves.length).flatMap (fun e => [e.left, e.right]) =
      (nodes.drop leaves.length).flatMap (fun e => [e.left, e.right]) ++ [c1, c2] := by
    have := map_merge (fun e => [e.left, e.right]) (fun _ _ => rfl) nodes c1 c2
    rw [List.flatMap_def, List.flatMap_def, List.map_drop, List.map_drop, this,
      List.drop_append_of_le_length (by simpa using hle)]
    simp [Node.newParent]
  have old : ∀ {i : Nat}, i < nodes.length → ∀ e ∈ (merge nodes c1 c2)[i]?, ∃ e0, nodes[i]? = some e0 ∧
      e = (if i = c1 then { e0 with bit := false } else if i = c2 then { e0 with bit := true } else e0) := by
    intro i hi e he
    rw [getElem?_merge_old hc hi] at he
    obtain ⟨e0, he0, rfl⟩ := Option.map_eq_some_iff.1 he
    exact ⟨e0, he0, rfl⟩
  constructor
  · have := hp.length_eq
    have := h.count
    simp only [length_merge, nextWork, List.length_append, List.length_cons, List.length_nil] at *
    omega
  · simp; omega
  · rw [hchildren, length_merge, List.range_succ]
    have : ((nodes.drop leaves.length).flatMap (fun e => [e.left, e.right]) ++ [c1, c2] ++
        nextWork W c1 c2 nodes.length).Perm
        (((nodes.drop leaves.length).flatMap (fun e => [e.left, e.right]) ++ W) ++ [nodes.length]) := by
      simp only [nextWork, List.append_assoc]
      apply List.Perm.append_left
      simpa using (hp.append_right [nodes.length]).symm
    exact this.trans (h.owned.append_right _)
  · rw [List.map_take, map_merge _ (fun _ _ => rfl),
      List.take_append_of_le_length (by simpa using hle), ← List.map_take, h.leavesKept]
  · intro i hi hli e he
    by_cases hin : i < nodes.length
    · obtain ⟨e0, he0, rfl⟩ := old hin e he
      obtain ⟨a, b, c, d, f⟩ := h.internals i hin hli e0 he0
      have key : ∀ e : Node, e.kind = e0.kind → e.sym = e0.sym → e.left = e0.left →
          e.right = e0.right → e.f = e0.f → (e.kind = .internal ∧ e.sym = 0 ∧ e.left < i ∧
          e.right < i ∧ e.f = freqAt (merge nodes c1 c2) e.left + freqAt (merge nodes c1 c2) e.right) := by
        intro e k1 k2 k3 k4 k5
        rw [k1, k2, k3, k4, k5, freqAt_merge_old (by omega), freqAt_merge_old (by omega)]
        exact ⟨a, b, c, d, f⟩
      split
      · exact key _ rfl rfl rfl rfl rfl
      · split
        · exact key _ rfl rfl rfl rfl rfl
        · exact key _ rfl rfl rfl rfl rfl
    · have : i = nodes.length := by simp at hi; omega
      subst this
      rw [getElem?_merge_new] at he
      obtain rfl : Node.newParent _ c1 c2 = e := by simpa using he
      simp [Node.newParent, l1, l2, freqAt_merge_old l1, freqAt_merge_old l2]
  · have hsum : (W.map (freqAt nodes)).sum = freqAt nodes c1 + (freqAt nodes c2 +
        ((W.filter fun i => i != c1 && i != c2).map (freqAt nodes)).sum) := by
      simpa using (hp.map (freqAt nodes)).sum_eq
    rw [← h.total, hsum]
    have : (W.filter fun i => i != c1 && i != c2).map (freqAt (merge nodes c1 c2)) =
        (W.filter fun i => i != c1 && i != c2).map (freqAt nodes) :=
      List.map_congr_left fun i hi => freqAt_merge_old (hlt i hi)
    simp only [nextWork, List.map_append, this, List.sum_append, List.map_cons, List.map_nil,
      List.sum_cons, List.sum_nil, freqAt_merge_new]
    omega
  · intro i hi e he
    simp only [nextWork, List.mem_append, List.mem_singleton] at hi
    rcases hi with hi | rfl
    · obtain ⟨hiW, hne⟩ := List.mem_filter.1 hi
      simp only [bne_iff_ne, Bool.and_eq_true] at hne
      obtain ⟨e0, he0, rfl⟩ := old (h.work_lt i hiW) e he
      simpa [hne.1, hne.2] using h.unmarked i hiW e0 he0
    · rw [getElem?_merge_new] at he
      obtain rfl : Node.newParent _ c1 c2 = e := by simpa using he
      rfl
  · intro i hi hli e he
    by_cases hin : i < nodes.length
    · obtain ⟨e0, he0, rfl⟩ := old hin e he
      obtain ⟨-, -, hl, hr, -⟩ := h.internals i hin hli e0 he0
      obtain ⟨hnl, hnr⟩ := h.child_not_work hli he0
      obtain ⟨ml, mr⟩ := h.marked i hin hli e0 he0
      have key : ∀ e : Node, e.left = e0.left → e.right = e0.right →
          (∀ l ∈ (merge nodes c1 c2)[e.left]?, l.bit = false) ∧
          (∀ r ∈ (merge nodes c1 c2)[e.right]?, r.bit = true) := by
        intro e k1 k2
        rw [k1, k2]
        constructor
        · intro l hlm
          obtain ⟨l0, hl0, rfl⟩ := old (by omega) l hlm
          have n1 : e0.left ≠ c1 := fun hh => hnl (hh ▸ h1)
          have n2 : e0.left ≠ c2 := fun hh => hnl (hh ▸ h2)
          simpa [n1, n2] using ml l0 hl0
        · intro r hrm
          obtain ⟨r0, hr0, rfl⟩ := old (by omega) r hrm
          have n1 : e0.right ≠ c1 := fun hh => hnr (hh ▸ h1)
          have n2 : e0.right ≠ c2 := fun hh => hnr (hh ▸ h2)
          simpa [n1, n2] using mr r0 hr0
      split
      · exact key _ rfl rfl
      · split
        · exact key _ rfl rfl
        · exact key _ rfl rfl
    · have : i = nodes.length := by simp at hi; omega
      subst this
      rw [getElem?_merge_new] at he
      obtain rfl : Node.newParent _ c1 c2 = e := by simpa using he
      simp only [Node.newParent]
      constructor
      · intro l hl
        obtain ⟨l0, -, rfl⟩ := old l1 l hl
        simp
      · intro r hr
        obtain ⟨r0, -, rfl⟩ := old l2 r hr
        simp [hc.symm]

/-- The loop keeps its invariant and, with fuel for it, leaves one element. -/
theorem buildLoop_inv {leaves : List Node} (fuel : Nat) {nodes : List Node} {W : List Nat}
    (h : LoopInv leaves nodes W) (hW : W ≠ []) (hf : W.length ≤ fuel + 1) :
    ∃ nodes' root, buildLoop fuel nodes W = (nodes', [root]) ∧ LoopInv leaves nodes' [root] := by
  induction fuel generalizing nodes W with
  | zero =>
    obtain ⟨r, rfl⟩ : ∃ r, W = [r] := by
      rcases W with _ | ⟨r, _ | _⟩
      · contradiction
      · exact ⟨r, rfl⟩
      · simp at hf
    exact ⟨nodes, r, rfl, h⟩
  | succ fuel ih =>
    unfold buildLoop
    split
    · next hs =>
      have := select_isSome nodes W
      rw [hs] at this
      obtain ⟨r, rfl⟩ : ∃ r, W = [r] := by
        rcases W with _ | ⟨r, _ | _⟩
        · contradiction
        · exact ⟨r, rfl⟩
        · simp at this
      exact ⟨nodes, r, rfl, h⟩
    · next c1 c2 hs =>
      have h' := loopInv_merge h hs
      have e1 := h.count
      have e2 := h'.count
      simp only [length_merge] at e2
      refine ih h' (by simp [nextWork]) (by omega)

/-! ### The merges of the loop -/

/-- The scan sees only the frequencies of its list. -/
theorem select_congr {a b : List Node} {W : List Nat} (h : ∀ i ∈ W, freqAt a i = freqAt b i) :
    select a W = select b W := by
  have fold : ∀ (rest : List Nat) (c : Nat × Nat), freqAt a c.1 = freqAt b c.1 →
      freqAt a c.2 = freqAt b c.2 → (∀ i ∈ rest, freqAt a i = freqAt b i) →
      rest.foldl (scanStep a) c = rest.foldl (scanStep b) c := by
    intro rest
    induction rest with
    | nil => intros; rfl
    | cons v rest ih =>
      intro c h1 h2 hr
      have hv := hr v (by simp)
      have e : scanStep a c v = scanStep b c v := by simp only [scanStep, hv, h1, h2]
      simp only [List.foldl_cons, e]
      apply ih
      · unfold scanStep; split
        · exact hv
        · split <;> exact h1
      · unfold scanStep; split
        · exact h1
        · split
          · exact hv
          · exact h2
      · exact fun i hi => hr i (by simp [hi])
  rcases W with _ | ⟨x, _ | ⟨y, rest⟩⟩
  · rfl
  · rfl
  · simp only [select]
    rw [fold rest (x, y) (h x (by simp)) (h y (by simp)) fun i hi => h i (by simp [hi])]

/-- What stays of an entry through every later merge: its children and its frequency. -/
def Node.shape (e : Node) : Nat × Nat × Nat := (e.f, e.left, e.right)

/-- A merge keeps the shape of the entries before it. -/
theorem shape_merge_old {nodes : List Node} {c1 c2 j : Nat} (h : j < nodes.length) :
    (merge nodes c1 c2)[j]?.map Node.shape = nodes[j]?.map Node.shape := by
  have := congrArg (·[j]?) (map_merge Node.shape (fun _ _ => rfl) nodes c1 c2)
  simpa [List.getElem?_map, List.getElem?_append_left, h] using this

/-- Equal shapes have equal frequencies. -/
theorem freqAt_of_shape {a b : List Node} {j : Nat}
    (h : a[j]?.map Node.shape = b[j]?.map Node.shape) : freqAt a j = freqAt b j := by
  unfold freqAt
  cases ha : a[j]? <;> cases hb : b[j]? <;> simp_all [Node.shape]

/-- The working lists of the loop, one before each merge, and the entry each merge makes (R122 to
R125); entries already made keep their shape. -/
theorem buildLoop_trace {leaves : List Node} (fuel : Nat) {nodes : List Node} {W : List Nat}
    (h : LoopInv leaves nodes W) (hW : W ≠ []) (hf : W.length ≤ fuel + 1) {nodes' : List Node}
    {root : Nat} (hb : buildLoop fuel nodes W = (nodes', [root])) :
    (∀ j < nodes.length, nodes'[j]?.map Node.shape = nodes[j]?.map Node.shape) ∧
    ∃ work : Nat → List Nat, work 0 = W ∧ work (W.length - 1) = [root] ∧
      ∀ k < W.length - 1, ∃ e, nodes'[nodes.length + k]? = some e ∧
        select nodes' (work k) = some (e.left, e.right) ∧
        work (k + 1) =
          (work k).filter (fun i => i != e.left && i != e.right) ++ [nodes.length + k] := by
  induction fuel generalizing nodes W with
  | zero =>
    simp only [buildLoop, Prod.mk.injEq] at hb
    obtain ⟨rfl, rfl⟩ := hb
    exact ⟨fun _ _ => rfl, fun _ => [root], rfl, rfl, by simp⟩
  | succ fuel ih =>
    unfold buildLoop at hb
    split at hb
    · simp only [Prod.mk.injEq] at hb
      obtain ⟨rfl, rfl⟩ := hb
      exact ⟨fun _ _ => rfl, fun _ => [root], rfl, rfl, by simp⟩
    · next c1 c2 hs =>
      have h' := loopInv_merge h hs
      have e1 := h.count
      have e2 := h'.count
      simp only [length_merge] at e2
      obtain ⟨hold, work, w0, wl, hw⟩ := ih h' (by simp [nextWork]) (by omega) hb
      have hlen : W.length = (nextWork W c1 c2 nodes.length).length + 1 := by omega
      simp only [length_merge] at hold hw
      have keep : ∀ j < nodes.length, nodes'[j]?.map Node.shape = nodes[j]?.map Node.shape :=
        fun j hj => (hold j (by omega)).trans (shape_merge_old hj)
      have hsel : select nodes' W = some (c1, c2) := by
        rw [← hs]
        exact select_congr fun i hi => freqAt_of_shape (keep i (h.work_lt i hi))
      obtain ⟨e, he, hl, hr⟩ : ∃ e, nodes'[nodes.length]? = some e ∧ e.left = c1 ∧ e.right = c2 := by
        have := hold nodes.length (by omega)
        rw [getElem?_merge_new] at this
        cases hn : nodes'[nodes.length]? with
        | none => simp [hn] at this
        | some e =>
          simp only [hn, Option.map_some, Option.some.injEq, Node.shape, Node.newParent,
            Prod.mk.injEq] at this
          exact ⟨e, rfl, this.2.1, this.2.2⟩
      refine ⟨keep, fun k => match k with | 0 => W | k + 1 => work k, rfl, ?_, ?_⟩
      · have hp : (nextWork W c1 c2 nodes.length).length ≠ 0 := by simp [nextWork]
        obtain ⟨m, hm⟩ := Nat.exists_eq_succ_of_ne_zero hp
        have : W.length - 1 = m + 1 := by omega
        rw [this]
        show work m = [root]
        rw [← wl]; congr 1; omega
      · intro k hk
        cases k with
        | zero =>
          refine ⟨e, he, by rw [hl, hr]; exact hsel, ?_⟩
          show work 0 = _
          rw [w0, hl, hr]; rfl
        | succ k =>
          obtain ⟨e', h1, h2, h3⟩ := hw k (by omega)
          rw [show nodes.length + (k + 1) = nodes.length + 1 + k by omega]
          exact ⟨e', h1, h2, h3⟩

/-! ### The node store BUILD makes -/

/-- BUILD of a table with an entry makes the node store of R48. -/
theorem buildStore_inv {c : Config} {t : FreqTable} (h : t.Wf) (hk : ∀ p ∈ t, p.1 < c.nsymMax)
    (hne : t ≠ []) :
    ∃ st, buildStore c t = some st ∧ st.Inv t ∧ st.Marked t.length := by
  have hleaves := makeLeaves_eq_map h hk
  have hlen : (makeLeaves c t).length = t.length := by simp [hleaves]
  have hpos : 0 < t.length := List.length_pos_iff.2 hne
  obtain ⟨nodes, root, hl, hi⟩ := buildLoop_inv (makeLeaves c t).length
    (loopInv_start (makeLeaves c t) (by
      intro e he
      rw [hleaves] at he
      obtain ⟨p, -, rfl⟩ := List.mem_map.1 he
      rfl))
    (by
      intro h0
      have := congrArg List.length h0
      rw [List.length_range, hlen] at this
      simp only [List.length_nil] at this
      omega)
    (by simp)
  have hcount := hi.count
  have hown := hi.owned
  have hroot := hi.work_lt root (by simp)
  rw [hlen] at hcount hown
  simp only [List.length_singleton] at hcount
  have hr : root = nodes.length - 1 := by
    rcases Nat.lt_or_ge t.length nodes.length with hlt | hge
    · -- an internal entry is last: its index is below nothing, so it is nobody's child
      by_contra hne'
      have hmem : nodes.length - 1 ∈ List.range nodes.length := by simp; omega
      have := hown.mem_iff.2 hmem
      rcases List.mem_append.1 this with h' | h'
      · obtain ⟨e, he, hch⟩ := List.mem_flatMap.1 h'
        obtain ⟨k, hk, hke⟩ := List.getElem_of_mem he
        have hk' : k < nodes.length - t.length := by simpa using hk
        have hke' : nodes[t.length + k]? = some e := by
          rw [← hke, List.getElem_drop]; simp
        obtain ⟨-, -, a, b, -⟩ := hi.internals (t.length + k) (by omega) (by omega) e hke'
        simp only [List.mem_cons, List.not_mem_nil, or_false] at hch
        omega
      · simp only [List.mem_singleton] at h'; omega
    · omega
  refine ⟨{ nodes := nodes, nnodes := nodes.length, root := root }, ?_, ?_, ?_⟩
  · unfold buildStore
    simp only [hl]
  · constructor
    · exact hne
    · rfl
    · simp only; omega
    · exact hr
    · have := hi.leavesKept
      rw [hlen] at this
      simp only [NodeStore.LeavesOf, this, hleaves, List.map_map]
      rfl
    · intro i hi' hle
      have := hi.internals i hi' (by omega)
      exact this
    · have h1 : (List.range nodes.length).Perm (List.range root ++ [root]) := by
        rw [← List.range_succ, show root.succ = nodes.length by omega]
      have h2 := hown.trans h1
      exact (List.perm_append_right_iff _).1 h2
    · have := hi.total
      simp only [List.map_cons, List.map_nil, List.sum_cons, List.sum_nil, Nat.add_zero] at this
      simp only [this, hleaves, FreqTable.sum, List.map_map]
      rfl
  · refine ⟨fun i hi' hle e he => hi.marked i hi' (by omega) e he, ?_⟩
    exact fun e he => hi.unmarked root (by simp) e he

/-- A BUILD takes the pairs its scan selects, in order, and appends each parent at the tail. -/
theorem buildStore_mergedFrom {c : Config} {t : FreqTable} (h : t.Wf)
    (hk : ∀ p ∈ t, p.1 < c.nsymMax) (hne : t ≠ []) {st : NodeStore}
    (hs : buildStore c t = some st) : st.MergedFrom t.length := by
  have hlen : (makeLeaves c t).length = t.length := by simp [makeLeaves_eq_map h hk]
  have hpos : 0 < t.length := List.length_pos_iff.2 hne
  have hstart := loopInv_start (makeLeaves c t) (by
      intro e he
      rw [makeLeaves_eq_map h hk] at he
      obtain ⟨p, -, rfl⟩ := List.mem_map.1 he
      rfl)
  have hW : List.range (makeLeaves c t).length ≠ [] := by
    rw [hlen]; intro h0; have := congrArg List.length h0
    rw [List.length_range, List.length_nil] at this; omega
  obtain ⟨nodes, root, hl, -⟩ := buildLoop_inv (makeLeaves c t).length hstart hW (by simp)
  obtain ⟨-, work, w0, wl, hw⟩ :=
    buildLoop_trace (makeLeaves c t).length hstart hW (by simp) hl
  unfold buildStore at hs
  simp only [hl, Option.some.injEq] at hs
  subst hs
  simp only [List.length_range, hlen] at w0 wl hw
  exact ⟨work, w0, wl, hw⟩

end Sys2Proof.Machine
end

