-- ==== Sys2Proof/Laws/Walks.lean ====
section
/-! SUPPORT. The laws of the walks over a node store with the invariant of R48: the leaves under an
index, the search of R142, the depth of R130, and the bound of R124 on every frequency. -/

namespace Sys2Proof.Machine

/-! ### Entries of a node store with the invariant -/

variable {cnt : FreqTable} {t : NodeStore}

theorem NodeStore.Inv.count_pos (h : t.Inv cnt) : 0 < cnt.length := List.length_pos_iff.2 h.nonempty

theorem NodeStore.Inv.root_lt (h : t.Inv cnt) : t.root < t.nnodes := by
  have := h.count_pos; have := h.nnodes_count; have := h.root_eq; omega

theorem NodeStore.Inv.entry_eq (h : t.Inv cnt) (i : Nat) : t.entry? i = t.nodes[i]? := by
  unfold NodeStore.entry?
  split
  · rfl
  · next hi => rw [h.nnodes_eq] at hi; simp [List.getElem?_eq_none (Nat.le_of_not_lt hi)]

/-- Entry `j` is the leaf of the table's entry `j`. -/
theorem NodeStore.Inv.leaf_at (h : t.Inv cnt) {j : Nat} (hj : j < cnt.length) :
    ∃ e, t.nodes[j]? = some e ∧ e.kind = .leaf ∧ e.sym = BitVec.ofNat 16 cnt[j].1 ∧
      e.f = cnt[j].2 ∧ e.left = 0 ∧ e.right = 0 := by
  have hl := h.leaves
  have h1 := h.nnodes_eq
  have h2 := h.nnodes_count
  have hj' : j < t.nodes.length := by omega
  have := congrArg (·[j]?) hl
  simp [hj, hj'] at this
  exact ⟨t.nodes[j], by simp [hj'], this.1, this.2.1, this.2.2.1, this.2.2.2.1, this.2.2.2.2⟩

/-- An entry is a leaf below NSYM and an internal node from there on. -/
theorem NodeStore.Inv.cases (h : t.Inv cnt) {i : Nat} (hi : i < t.nnodes) :
    ∃ e, t.entry? i = some e ∧
      ((i < cnt.length ∧ e.kind = .leaf) ∨
       (cnt.length ≤ i ∧ e.kind = .internal ∧ e.left < i ∧ e.right < i ∧
         e.f = freqAt t.nodes e.left + freqAt t.nodes e.right)) := by
  rcases Nat.lt_or_ge i cnt.length with hlt | hge
  · obtain ⟨e, he, hk, -⟩ := h.leaf_at hlt
    exact ⟨e, by rw [h.entry_eq, he], .inl ⟨hlt, hk⟩⟩
  · have hi' : i < t.nodes.length := by rw [← h.nnodes_eq]; exact hi
    have he : t.nodes[i]? = some t.nodes[i] := by simp [hi']
    obtain ⟨a, -, b, c, d⟩ := h.internals i hi hge _ he
    exact ⟨_, by rw [h.entry_eq, he], .inr ⟨hge, a, b, c, d⟩⟩

/-! ### The leaves under an index -/

/-- The indices of the leaves under `i`, left to right, as a path of `fuel` nodes can reach them. -/
def leavesFrom (t : NodeStore) : Nat → Nat → List Nat
  | 0, _ => []
  | fuel + 1, i =>
    match t.entry? i with
    | none => []
    | some e =>
      match e.kind with
      | .leaf => [i]
      | .internal => leavesFrom t fuel e.left ++ leavesFrom t fuel e.right

/-- With children below their parents, fuel above the index is enough. -/
theorem leavesFrom_fuel (h : t.Inv cnt) {i : Nat} (hi : i < t.nnodes) {f g : Nat} (hf : i < f)
    (hg : i < g) : leavesFrom t f i = leavesFrom t g i := by
  induction i using Nat.strongRecOn generalizing f g with
  | _ i ih =>
    obtain ⟨f, rfl⟩ : ∃ k, f = k + 1 := ⟨f - 1, by omega⟩
    obtain ⟨g, rfl⟩ : ∃ k, g = k + 1 := ⟨g - 1, by omega⟩
    obtain ⟨e, he, hc⟩ := h.cases hi
    unfold leavesFrom
    rw [he]
    rcases hc with ⟨-, hk⟩ | ⟨-, hk, hl, hr, -⟩
    · simp [hk]
    · simp only [hk]
      rw [ih e.left hl (by omega) (by omega : e.left < f) (by omega : e.left < g),
        ih e.right hr (by omega) (by omega : e.right < f) (by omega : e.right < g)]

/-- The leaves under `i`. -/
def leavesUnder (t : NodeStore) (i : Nat) : List Nat := leavesFrom t (i + 1) i

theorem leavesUnder_leaf (h : t.Inv cnt) {i : Nat} (hi : i < cnt.length) :
    leavesUnder t i = [i] := by
  obtain ⟨e, he, hk, -⟩ := h.leaf_at hi
  simp [leavesUnder, leavesFrom, h.entry_eq, he, hk]

theorem leavesUnder_internal (h : t.Inv cnt) {i : Nat} (hi : i < t.nnodes)
    {e : Node} (he : t.entry? i = some e) (hk : e.kind = .internal) (hl : e.left < i)
    (hr : e.right < i) : leavesUnder t i = leavesUnder t e.left ++ leavesUnder t e.right := by
  have : leavesUnder t i = leavesFrom t i e.left ++ leavesFrom t i e.right := by
    simp [leavesUnder, leavesFrom, he, hk]
  rw [this, leavesFrom_fuel h (by omega) hl (Nat.lt_succ_self _),
    leavesFrom_fuel h (by omega) hr (Nat.lt_succ_self _)]
  rfl

/-- Every leaf is under the root exactly once: the children named are all indices below ROOT, each
once, so the leaves under all entries and under all children differ by those under the root. -/
theorem leavesUnder_root (h : t.Inv cnt) :
    (leavesUnder t t.root).Perm (List.range cnt.length) := by
  have hroot := h.root_lt
  have hre := h.root_eq
  have hcount := h.nnodes_count
  have hpos := h.count_pos
  have hlen := h.nnodes_eq
  -- the entries from NSYM on, and their children
  have hint : ((List.range' cnt.length (t.nnodes - cnt.length)).flatMap (leavesUnder t)) =
      (t.children cnt.length).flatMap (leavesUnder t) := by
    unfold NodeStore.children
    rw [List.flatMap_assoc]
    have : t.nodes.drop cnt.length = (List.range' cnt.length (t.nnodes - cnt.length)).pmap
        (fun i (hi : i < t.nodes.length) => t.nodes[i]) (fun i hi => by
          have := List.mem_range'_1.1 hi; omega) := by
      apply List.ext_getElem
      · simp; omega
      · intro k h1 h2
        simp
    rw [this, List.flatMap_def, List.flatMap_def, List.map_pmap]
    congr 1
    apply List.ext_getElem
    · simp
    · intro k h1 h2
      simp only [List.getElem_map, List.getElem_range', List.getElem_pmap]
      have hk : cnt.length + 1 * k < t.nnodes := by simp at h1; omega
      obtain ⟨e, he, hc⟩ := h.cases hk
      have he' : t.nodes[cnt.length + 1 * k]'(by omega) = e := by
        rw [h.entry_eq] at he
        have := List.getElem?_eq_some_iff.1 he
        exact this.2
      rcases hc with ⟨h', -⟩ | ⟨-, hk', hl, hr, -⟩
      · omega
      · rw [leavesUnder_internal h hk he hk' hl hr, he']
        simp
  have hall : List.range t.nnodes =
      List.range cnt.length ++ List.range' cnt.length (t.nnodes - cnt.length) := by
    rw [List.range_eq_range', List.range_eq_range',
      show t.nnodes = cnt.length + (t.nnodes - cnt.length) by omega, ← List.range'_append (step := 1)]
    simp
  have hall' : List.range t.nnodes = List.range t.root ++ [t.root] := by
    rw [← List.range_succ]; congr 1; omega
  have hleaf : (List.range cnt.length).flatMap (leavesUnder t) = List.range cnt.length := by
    have : (List.range cnt.length).map (leavesUnder t) = (List.range cnt.length).map fun i => [i] :=
      List.map_congr_left fun i hi => leavesUnder_leaf h (by simpa using hi)
    rw [List.flatMap_def, this]
    exact List.flatMap_singleton' _
  have e1 : ((List.range t.nnodes).flatMap (leavesUnder t)) =
      List.range cnt.length ++ (t.children cnt.length).flatMap (leavesUnder t) := by
    rw [hall, List.flatMap_append, hleaf, hint]
  have e2 : ((List.range t.nnodes).flatMap (leavesUnder t)) =
      (List.range t.root).flatMap (leavesUnder t) ++ leavesUnder t t.root := by
    rw [hall', List.flatMap_append]; simp
  have hp : ((t.children cnt.length).flatMap (leavesUnder t)).Perm
      ((List.range t.root).flatMap (leavesUnder t)) := h.owned.flatMap_right _
  have : ((List.range t.root).flatMap (leavesUnder t) ++ leavesUnder t t.root).Perm
      ((List.range t.root).flatMap (leavesUnder t) ++ List.range cnt.length) := by
    rw [← e2, e1]
    exact (List.Perm.append_left _ hp).trans List.perm_append_comm
  exact (List.perm_append_left_iff _).1 this

/-! ### The walks of R130 and R142 on a node store with the invariant -/

/-- Whether entry `j` is the leaf of `sym`, and its bit. -/
def matchBit (t : NodeStore) (sym : Symbol) (j : Nat) : Option Bool :=
  (t.nodes[j]?).bind fun e => if e.sym = sym then some e.bit else none

/-- dfs(i) finds the first leaf under `i` with the symbol. -/
theorem lookupFrom_eq (h : t.Inv cnt) (sym : Symbol) {i : Nat} (hi : i < t.nnodes) {fuel : Nat}
    (hf : i < fuel) :
    lookupFrom t sym fuel i = .ok ((leavesUnder t i).findSome? (matchBit t sym)) := by
  induction i using Nat.strongRecOn generalizing fuel with
  | _ i ih =>
    obtain ⟨fuel, rfl⟩ : ∃ k, fuel = k + 1 := ⟨fuel - 1, by omega⟩
    obtain ⟨e, he, hc⟩ := h.cases hi
    unfold lookupFrom
    rw [he]
    rcases hc with ⟨hlt, hk⟩ | ⟨-, hk, hl, hr, -⟩
    · have he' := he
      rw [h.entry_eq] at he'
      simp only [hk, leavesUnder_leaf h hlt, List.findSome?_cons, List.findSome?_nil, matchBit, he',
        Option.bind_some]
      split <;> rfl
    · simp only [hk]
      rw [ih e.left hl (by omega) (by omega), ih e.right hr (by omega) (by omega),
        leavesUnder_internal h hi he hk hl hr, List.findSome?_append]
      cases List.findSome? (matchBit t sym) (leavesUnder t e.left) <;> simp

/-- Two leaves of a table over the alphabet have different symbols. -/
theorem leaf_sym_inj (h : t.Inv cnt) {c : Config} (hc : c.Legal) (hw : cnt.Wf)
    (hk : ∀ p ∈ cnt, p.1 < c.nsymMax) {j k : Nat} (hj : j < cnt.length) (hk' : k < cnt.length)
    {a b : Node} (ha : t.nodes[j]? = some a) (hb : t.nodes[k]? = some b) (hab : a.sym = b.sym) :
    j = k := by
  obtain ⟨a', ha', -, hsa, -⟩ := h.leaf_at hj
  obtain ⟨b', hb', -, hsb, -⟩ := h.leaf_at hk'
  obtain rfl : a' = a := by rw [ha'] at ha; exact Option.some.inj ha
  obtain rfl : b' = b := by rw [hb'] at hb; exact Option.some.inj hb
  have hmax : c.nsymMax ≤ 2 ^ 16 := by
    rcases hc.1 with h | h <;> simp [Config.nsymMax, h]
  have l1 := hk _ (List.getElem_mem hj)
  have l2 := hk _ (List.getElem_mem hk')
  have heq : cnt[j].1 = cnt[k].1 := by
    have := congrArg BitVec.toNat (hsa.symm.trans (hab.trans hsb))
    simp only [BitVec.toNat_ofNat] at this
    rwa [Nat.mod_eq_of_lt (by omega), Nat.mod_eq_of_lt (by omega)] at this
  have hpw := List.pairwise_iff_getElem.1 hw.1
  rcases Nat.lt_trichotomy j k with hlt | heq' | hgt
  · have := hpw j k hj hk' hlt; omega
  · exact heq'
  · have := hpw k j hk' hj hgt; omega

/-- lookup(sym) is the direct rule of R142: the bit of the one leaf with the symbol, if any. -/
theorem lookup_eq_directCode (h : t.Inv cnt) {c : Config} (hc : c.Legal) (hw : cnt.Wf)
    (hk : ∀ p ∈ cnt, p.1 < c.nsymMax) (sym : Symbol) :
    lookup t sym = .ok (t.directCode cnt.length sym) := by
  have hroot := h.root_lt
  unfold lookup
  rw [lookupFrom_eq h sym hroot (by omega)]
  congr 1
  have hperm := leavesUnder_root h
  -- both sides find the bit of an entry below NSYM with the symbol, and there is at most one
  have hmatch : ∀ j b, matchBit t sym j = some b ↔
      ∃ e, t.nodes[j]? = some e ∧ e.sym = sym ∧ e.bit = b := by
    intro j b
    unfold matchBit
    cases hj : t.nodes[j]? with
    | none => simp
    | some e => by_cases hs : e.sym = sym <;> simp [hs]
  have left : ∀ b, (leavesUnder t t.root).findSome? (matchBit t sym) = some b ↔
      ∃ j < cnt.length, matchBit t sym j = some b := by
    intro b
    constructor
    · intro hb
      obtain ⟨j, hj, hjb⟩ := List.exists_of_findSome?_eq_some hb
      exact ⟨j, by simpa using hperm.mem_iff.1 hj, hjb⟩
    · rintro ⟨j, hj, hjb⟩
      have hjm : j ∈ leavesUnder t t.root := hperm.mem_iff.2 (by simpa using hj)
      cases hf : (leavesUnder t t.root).findSome? (matchBit t sym) with
      | none => rw [List.findSome?_eq_none_iff.1 hf j hjm] at hjb; cases hjb
      | some b' =>
        obtain ⟨k, hkm, hkb⟩ := List.exists_of_findSome?_eq_some hf
        have hk' : k < cnt.length := by simpa using hperm.mem_iff.1 hkm
        obtain ⟨e, he, hes, heb⟩ := (hmatch j b).1 hjb
        obtain ⟨e', he', hes', heb'⟩ := (hmatch k b').1 hkb
        obtain rfl := leaf_sym_inj h hc hw hk hj hk' he he' (hes.trans hes'.symm)
        rw [hjb] at hkb
        exact hkb.symm
  have right : ∀ b, t.directCode cnt.length sym = some b ↔
      ∃ j < cnt.length, matchBit t sym j = some b := by
    intro b
    unfold NodeStore.directCode
    constructor
    · intro hb
      obtain ⟨e, he, hb⟩ := Option.map_eq_some_iff.1 hb
      have hes : e.sym = sym := by simpa using List.find?_some he
      obtain ⟨j, hj, hje⟩ := List.getElem_of_mem (List.mem_of_find?_eq_some he)
      simp only [List.length_take] at hj
      refine ⟨j, by omega, (hmatch j b).2 ⟨e, ?_, hes, hb⟩⟩
      rw [← hje, List.getElem_take]; simp
    · rintro ⟨j, hj, hjb⟩
      obtain ⟨e, he, hes, heb⟩ := (hmatch j b).1 hjb
      have hmem : e ∈ t.nodes.take cnt.length :=
        List.mem_of_getElem? (i := j) (by rw [List.getElem?_take_of_lt hj, he])
      cases hf : (t.nodes.take cnt.length).find? (fun e => e.sym == sym) with
      | none => have := List.find?_eq_none.1 hf e hmem; simp [hes] at this
      | some e' =>
        have hes' : e'.sym = sym := by simpa using List.find?_some hf
        obtain ⟨k, hk', hke⟩ := List.getElem_of_mem (List.mem_of_find?_eq_some hf)
        simp only [List.length_take] at hk'
        have he' : t.nodes[k]? = some e' := by rw [← hke, List.getElem_take]; simp
        obtain rfl := leaf_sym_inj h hc hw hk hj (by omega) he he' (hes.trans hes'.symm)
        rw [he] at he'
        obtain rfl := Option.some.inj he'
        simp [heb]
  ext b
  rw [left, right]

/-- depth(i) has a value, at least 1 and at most the number of leaves under `i`. -/
theorem depthFrom_ok (h : t.Inv cnt) {i : Nat} (hi : i < t.nnodes) {fuel : Nat} (hf : i < fuel) :
    ∃ d, depthFrom t fuel i = .ok d ∧ t.IsDepth i d ∧ 1 ≤ d ∧ d ≤ (leavesUnder t i).length := by
  induction i using Nat.strongRecOn generalizing fuel with
  | _ i ih =>
    obtain ⟨fuel, rfl⟩ : ∃ k, fuel = k + 1 := ⟨fuel - 1, by omega⟩
    obtain ⟨e, he, hc⟩ := h.cases hi
    unfold depthFrom
    rw [he]
    rcases hc with ⟨hlt, hk⟩ | ⟨-, hk, hl, hr, -⟩
    · exact ⟨1, by simp [hk], .leaf he hk, Nat.le_refl 1, by simp [leavesUnder_leaf h hlt]⟩
    · obtain ⟨l, el, dl, l1, l2⟩ := ih e.left hl (by omega) (by omega : e.left < fuel)
      obtain ⟨r, er, dr, r1, r2⟩ := ih e.right hr (by omega) (by omega : e.right < fuel)
      refine ⟨1 + max l r, by simp [hk, el, er], .internal he hk dl dr, by omega, ?_⟩
      rw [leavesUnder_internal h hi he hk hl hr, List.length_append]
      omega

/-- depth(ROOT) is between 1 and NSYM (R130). -/
theorem treeDepth_ok (h : t.Inv cnt) :
    ∃ d, treeDepth t = .ok d ∧ t.IsDepth t.root d ∧ 1 ≤ d ∧ d ≤ cnt.length := by
  have hroot := h.root_lt
  obtain ⟨d, h1, h2, h3, h4⟩ := depthFrom_ok h hroot (fuel := t.nnodes + 1) (by omega)
  have := (leavesUnder_root h).length_eq
  simp only [List.length_range] at this
  exact ⟨d, h1, h2, h3, by omega⟩

/-- Every node's frequency is at most the sum of the counts (R124). -/
theorem freqAt_le_sum (h : t.Inv cnt) {i : Nat} (hi : i < t.nnodes) : freqAt t.nodes i ≤ cnt.sum := by
  have hre := h.root_eq
  have hlen := h.nnodes_eq
  -- downward from the root: an index below ROOT is the child of a higher one
  obtain ⟨k, hk⟩ : ∃ k, k + i = t.root := ⟨t.root - i, by omega⟩
  induction k using Nat.strongRecOn generalizing i with
  | _ k ih =>
    rcases Nat.eq_zero_or_pos k with rfl | hpos
    · have : i = t.root := by omega
      subst this
      exact Nat.le_of_eq h.root_total
    · have hmem : i ∈ t.children cnt.length := h.owned.mem_iff.2 (by simp; omega)
      obtain ⟨e, he, hch⟩ := List.mem_flatMap.1 hmem
      obtain ⟨m, hm, hme⟩ := List.getElem_of_mem he
      simp only [List.length_drop] at hm
      have hme' : t.nodes[cnt.length + m]? = some e := by
        rw [← hme, List.getElem_drop]; simp
      obtain ⟨-, -, hl, hr, hf⟩ := h.internals (cnt.length + m) (by omega) (by omega) e hme'
      simp only [List.mem_cons, List.not_mem_nil, or_false] at hch
      have hp := ih (t.root - (cnt.length + m)) (by omega) (i := cnt.length + m) (by omega) (by omega)
      have hfm : freqAt t.nodes (cnt.length + m) = e.f := by simp [freqAt, hme']
      rcases hch with rfl | rfl <;> omega

end Sys2Proof.Machine
end

