-- ==== Sys2Proof/Tests/Slice0.lean ====
section
/-! SUPPORT. Tests of the model against the spec's own encodings and vectors (95_test_vectors.md; its
numbers are given), each one step on a small state; after them, for every obligation with hypotheses,
a witness that meets them. -/

namespace Sys2Proof.Tests

open Sys2Proof Sys2Proof.Machine

/-! ### Small states -/

/-- The reference machine with this frequency table. -/
def counting (cnt : FreqTable) : State :=
  { State.reset with cnt := cnt, nsym := cnt.length, total := cnt.sum }

/-- The same, with this tree built. -/
def built (cnt : FreqTable) (t : NodeStore) : State := { counting cnt with phase := .built t }

def ab : FreqTable := [(0x61, 1), (0x62, 1)]
def abc : FreqTable := [(0x61, 5), (0x62, 1), (0x63, 3)]

/-- The tree of vector B1, "ab". -/
def treeB1 : NodeStore where
  nodes := [⟨.leaf, 0x61, 1, false, 0, 0⟩, ⟨.leaf, 0x62, 1, true, 0, 0⟩,
    ⟨.internal, 0, 2, false, 0, 1⟩]
  nnodes := 3
  root := 2

/-- The tree of vector B2, "aaaaabccc". -/
def treeB2 : NodeStore where
  nodes := [⟨.leaf, 0x61, 5, true, 0, 0⟩, ⟨.leaf, 0x62, 1, false, 0, 0⟩,
    ⟨.leaf, 0x63, 3, false, 0, 0⟩, ⟨.internal, 0, 8, true, 2, 0⟩,
    ⟨.internal, 0, 9, false, 1, 3⟩]
  nnodes := 5
  root := 4

/-- The tree of vector B9, one leaf. -/
def treeB9 : NodeStore where
  nodes := [⟨.leaf, 0x61, 3, false, 0, 0⟩]
  nnodes := 1
  root := 0

def b1 : State := built ab treeB1
def b2 : State := built abc treeB2

/-- `s` with the turns `l` to come. -/
def turns (s : State) (l : List Turn) : State := { s with turns := l }

/-- One view of the next state a result answers; none where it stops. -/
def view {α : Type} (r : Result) (f : State → α) : Option α :=
  match r with
  | .next t => some (f t)
  | .fault _ => none
  | .refused _ => none

/-- RES0 to RES3 and ERR. -/
def results (s : State) : List Word × ErrCode := ([s.res0, s.res1, s.res2, s.res3], s.err)

/-- FIFO, PKBUF, PKBITS, PKOPEN and ERR. -/
def packer (s : State) : List Byte × Byte × BitVec 3 × Bool × ErrCode :=
  (s.fifo, s.pkbuf, s.pkbits, s.pkopen, s.err)

/-! ### Decoding: words written out from R90, R91 and R92 -/

theorem test_decode_nop :
    decode .reference 0b00000000_000000000000000000000000#32 = .cmd .nop := by decide
theorem test_decode_clear :
    decode .reference 0b00000001_000000000000000000000000#32 = .cmd .clear := by decide
theorem test_decode_count :
    decode .reference 0b00000010_000000000000000001100001#32 = .cmd (.count 0x61) := by decide
theorem test_decode_build :
    decode .reference 0b00000011_000000000000000000000000#32 = .cmd .build := by decide
theorem test_decode_resolve :
    decode .reference 0b00000100_000000000000000010110001#32 = .cmd (.resolve 0xB1) := by decide
theorem test_decode_encode :
    decode .reference 0b00000101_000000000000000011111111#32 = .cmd (.encode 0xFF) := by decide
theorem test_decode_putbit :
    decode .reference 0b00000110_000000000000000000000001#32 = .cmd (.putbit true) := by decide
theorem test_decode_close :
    decode .reference 0b00000111_000000000000000000000000#32 = .cmd .closeStream := by decide
theorem test_decode_open :
    decode .reference 0b00001000_000000000000000000000000#32 = .cmd .openStream := by decide
theorem test_decode_getfreq :
    decode .reference 0b00001001_000000000000000001111010#32 = .cmd (.getfreq 0x7A) := by decide
theorem test_decode_depth :
    decode .reference 0b00001010_000000000000000000000000#32 = .cmd .depth := by decide
theorem test_decode_noderd :
    decode .reference 0b00001011_000000010000000000000011#32 = .cmd (.noderd 0x10003) := by decide

/-- F6: a 16-bit symbol, in a configuration with SYMW = 16. -/
theorem test_decode_count16 :
    decode { Config.reference with symw := 16 } 0x0200263A#32 = .cmd (.count 0x263A) := by decide

/-- N3, N4: unassigned opcodes, with R93's two ends. -/
theorem test_decode_unassigned :
    [0x0C000000#32, 0x0C123456#32, 0xFF000000#32].map (decode .reference) =
      [.unassigned, .unassigned, .unassigned] := by decide

/-- N2, B12, F4, K10, T11: a bad operand of each kind. -/
theorem test_decode_badOperand :
    [0x00000001#32, 0x03000001#32, 0x02000100#32, 0x06000002#32, 0x0B020000#32].map
      (decode .reference) =
    [.badOperand .nop, .badOperand .build, .badOperand .count, .badOperand .putbit,
      .badOperand .noderd] := by decide

/-- F7: bit 16 is no operand bit with SYMW = 16. -/
theorem test_decode_badOperand16 :
    decode { Config.reference with symw := 16 } 0x02010000#32 = .badOperand .count := by decide

theorem test_decodeTableWord :
    (decodeTableWord 32 0x0B000003, decodeTableWord 32 0x0C000000) =
      (some (.noderd 3), none) := by decide

/-! ### Well-formedness: a term each check refuses -/

theorem test_wellFormed_count : ¬ (Instr.count 0x100).WellFormed .reference := by decide
theorem test_wellFormed_resolve : ¬ (Instr.resolve 0x100).WellFormed .reference := by decide
theorem test_wellFormed_encode : ¬ (Instr.encode 0xFFFF).WellFormed .reference := by decide
theorem test_wellFormed_getfreq : ¬ (Instr.getfreq 0x1000).WellFormed .reference := by decide
theorem test_legal_symw : ¬ ({ Config.reference with symw := 7 } : Config).Legal := by decide
theorem test_legal_freqw : ¬ ({ Config.reference with freqw := 33 } : Config).Legal := by decide
theorem test_legal_fifo : ¬ ({ Config.reference with ofifoDepth := 0 } : Config).Legal := by decide
theorem test_legal_base : ¬ ({ Config.reference with huffBase := 32 } : Config).Legal := by decide

/-! ### One step of each command -/

/-- N1. -/
theorem test_nop : view (exec .nop State.reset) State.status = some 0x00010008 := by decide

/-- N5. -/
theorem test_clear :
    view (exec .clear { b1 with fifo := [0x00], sticky := 0x80, pkopen := false, res0 := 7 })
      (fun t => (t.phase, [t.nsym, t.total, t.outlvl, t.res0.toNat], t.pkopen, t.sticky)) =
    some (.counting, [0, 0, 0, 0], true, 0x80) := by decide

/-- F1. -/
theorem test_count :
    view (exec (.count 0x61) State.reset) (fun t => (t.cnt, t.nsym, t.total, t.err, t.res0)) =
      some ([(0x61, 1)], 1, 1, .noError, 0) := by decide

/-- F8, the fourth COUNT: FREQW = 2, TOTAL = FMAX = 3. -/
theorem test_count_overflow :
    view (exec (.count 0x61)
      { counting [(0x61, 3)] with cfg := { Config.reference with freqw := 2 } })
      (fun t => (t.cnt, t.total, t.err, t.sticky)) =
    some ([(0x61, 3)], 3, .overflow, 0x40) := by decide

/-- B2, the non-minimal pick of R132. -/
theorem test_build :
    view (exec .build (counting abc)) (fun t => (t.phase, results t)) =
      some (.built treeB2, [4, 3, 5, 0], .noError) := by decide +kernel

/-- B7, whose second merge takes frequencies 3 and 4. -/
theorem test_build_displaced :
    view (exec .build (counting [(0x61, 4), (0x62, 3), (0x63, 2), (0x64, 1)])) State.phase =
      some (.built { nodes := [⟨.leaf, 0x61, 4, true, 0, 0⟩, ⟨.leaf, 0x62, 3, false, 0, 0⟩,
        ⟨.leaf, 0x63, 2, true, 0, 0⟩, ⟨.leaf, 0x64, 1, false, 0, 0⟩,
        ⟨.internal, 0, 3, false, 3, 2⟩, ⟨.internal, 0, 7, true, 4, 0⟩,
        ⟨.internal, 0, 10, false, 1, 5⟩], nnodes := 7, root := 6 }) := by decide +kernel

/-- Q1 and Q5: found with bit 1, and not found, which is no error. -/
theorem test_resolve :
    (view (exec (.resolve 0x61) b2) results, view (exec (.resolve 0x7A) b2) results) =
      (some ([3, 0, 0, 0], .noError), some ([0, 0, 0, 0], .noError)) := by decide

/-- E3 with p = 3: the shifted byte of R166. -/
theorem test_encode :
    view (exec (.encode 0x62) { b1 with pkbuf := 0xE0, pkbits := 3 }) packer =
      some ([0xE0], 0x20, 3, true, .noError) := by decide

/-- E8: NOTFOUND outranks OFULL. -/
theorem test_encode_notFound :
    view (exec (.encode 0x7A)
      { b1 with cfg := { Config.reference with ofifoDepth := 1 }, fifo := [0x00] }) packer =
    some ([0x00], 0, 0, true, .notFound) := by decide

/-- K2, the second PUTBIT. -/
theorem test_putbit :
    view (exec (.putbit true) { State.reset with pkbuf := 0x80, pkbits := 2 }) State.pkWord =
      some 0x000003A0 := by decide

/-- K11, the 16th PUTBIT: OFULL, PKBITS stays 7. -/
theorem test_putbit_full :
    view (exec (.putbit true) { State.reset with
      cfg := { Config.reference with ofifoDepth := 1 }, fifo := [0xFF], pkbits := 7 }) packer =
    some ([0xFF], 0, 7, true, .ofull) := by decide

/-- K3. -/
theorem test_close :
    view (exec .closeStream { State.reset with pkbuf := 0xA0, pkbits := 3 })
      (fun t => (t.fifo, t.pkWord, t.pkopen, t.bytesout)) = some ([0xA0], 0, false, 1) := by decide

/-- K9. -/
theorem test_close_aligned :
    view (exec .closeStream State.reset) packer = some ([], 0, 0, false, .noError) := by decide

/-- K6. -/
theorem test_open :
    view (exec .openStream { State.reset with pkopen := false, fifo := [0xA0], bytesout := 1 })
      (fun t => (t.fifo, t.err, t.pkopen, t.bytesout)) = some ([0xA0], .noError, true, 0) := by
  decide

/-- K7. -/
theorem test_open_twice :
    view (exec .openStream State.reset) State.err = some .pkstate := by decide

/-- G2, on the table of B2, after BUILD. -/
theorem test_getfreq :
    view (exec (.getfreq 0x61) b2) results = some ([5, 0, 0, 0], .noError) := by decide

/-- T2 and T5. -/
theorem test_depth :
    (view (exec .depth b2) results, view (exec .depth (built [(0x61, 3)] treeB9)) results) =
      (some ([3, 0, 0, 0], .noError), some ([1, 0, 0, 0], .noError)) := by decide

/-- T6 and T8. -/
theorem test_noderd :
    (view (exec (.noderd 3) b2) results, view (exec (.noderd 1) b1) results) =
      (some ([8, 0x00030000, 2, 0], .noError), some ([1, 0x00020062, 0, 0], .noError)) := by decide

/-- T10. -/
theorem test_noderd_range : view (exec (.noderd 3) b1) State.err = some .range := by decide

/-! ### Registers and protocol -/

/-- H1, H2, H3, H4, H7: reads after reset. -/
theorem test_reads_after_reset :
    [Reg.id, .cfg, .status, .out, .cmd, .reserved].map State.reset.readReg =
      [0x48554646, 0x00102008, 0x00000008, 0, 0, 0] := by decide

/-- R63 on H1: the lowest byte lane of ID is its last letter. -/
theorem test_byteLane :
    [0, 1, 2, 3].map (byteLane (State.reset.readReg .id)) = [0x46, 0x46, 0x55, 0x48] := by decide

/-- H5. -/
theorem test_sticky_clear :
    view (hostStep (.wr .reference .sticky 0x06) { State.reset with sticky := 0xBE }) State.sticky =
      some 0xB8 := by decide

/-- H8: a CMD write while BUSY = 1. -/
theorem test_drop :
    view (hostStep (.wr .reference .cmd 0) { State.reset with pend := some 0x02000061 })
      (fun t => (t.pend, t.sticky, t.donecnt, t.err)) =
    some (some 0x02000061, 1, 0, .noError) := by decide

/-- S2: a read of OUT. -/
theorem test_out :
    view (hostStep (.rd .reference .out) { State.reset with fifo := [0x01, 0x00] })
      (fun t => (t.reply, t.fifo)) = some (some (.data 0x101), [0x00]) := by decide

/-- R62: a byte read of OUT is a HOST fault. -/
theorem test_narrow_access :
    step (turns State.reset
      [.host { op := .read, addr := 0x20, bytes := 1, allLanes := true }]) =
    .fault (.undefinedAccess { op := .read, addr := 0x20, bytes := 1, allLanes := true }) := rfl

/-- R99's `wait` with a command pending: a read with BUSY = 1, which leaves the loop to go on. -/
theorem test_wait_polls :
    view (step (turns { State.reset with pend := some 0 } [wait 1]))
      (fun t => (t.turns, t.reply, t.pend)) = some ([wait 0], some (.data 0x9), some 0) := by decide

/-- The completion inside the loop, and the read that ends it. -/
theorem test_wait_ends :
    (view (step (turns { State.reset with pend := some 0 } [wait 0])) (fun t => (t.turns, t.pend)),
      view (step (turns State.reset [wait 0])) (fun t => (t.turns, t.reply))) =
    (some ([wait 0], none), some ([], some (.data 0x8))) := by decide

/-- R99's `encodes` with OFIFO_DEPTH = 2: a `drain` before the second byte and none for a symbol
without a leaf (E7). -/
theorem test_encodes :
    encodes { Config.reference with ofifoDepth := 2 } b1.emits (fun _ => 0) 0 [0x61, 0x7A, 0x62] =
      [.host (.wr .reference .cmd 0x05000061), wait 0,
        .host (.wr .reference .cmd 0x0500007A), wait 0, drain 0,
        .host (.wr .reference .cmd 0x05000062), wait 0] := by decide

/-- The first word after reset: the host's question, on COUNT. -/
theorem test_withFetchWord :
    view (step (State.reset.withFetchWord 32 0x02000061)) (fun t => (t.cnt, t.pend, t.turns)) =
      some ([(0x61, 1)], none, []) := by decide

/-- The reset table is in its canonical form. -/
theorem test_reset_table : State.reset.cnt.Wf := FreqTable.wf_nil

/-! ### Witnesses: a state and operands that meet the hypotheses of each obligation that has some -/

/-- The machine with word `w` pending and the CORE's turn next. -/
def pending (w : Word) : State := State.reset.withPending w

/-- A step, or a completion, answers a next state. -/
def answers (r : Result) : Prop := ∃ t, r = .next t

theorem reset_inv : State.reset.Inv :=
  ⟨by decide, by decide, by decide, by decide, by decide, by decide, nofun, by decide, by decide⟩

theorem counting_abc_inv : (counting abc).Inv :=
  ⟨by decide, by decide, by decide, by decide, by decide, by decide, nofun, by decide, by decide⟩

theorem counting_one_inv : (counting [(0xFF, 3)]).Inv :=
  ⟨by decide, by decide, by decide, by decide, by decide, by decide, nofun, by decide, by decide⟩

theorem treeB1_inv : treeB1.Inv ab :=
  ⟨by decide, by decide, by decide, by decide, by decide, by decide, by decide, by decide⟩

theorem b1_inv : b1.Inv :=
  ⟨by decide, by decide, by decide, by decide, by decide, by decide,
    fun _ h => Phase.built.inj h ▸ treeB1_inv, by decide, by decide⟩

/-- A state that meets the invariant with three bits in the packer and a full FIFO of one byte. -/
def partial3 : State :=
  { b1 with cfg := { Config.reference with ofifoDepth := 1 }, pkbuf := 0xE0, pkbits := 3 }

theorem partial3_inv : partial3.Inv :=
  ⟨by decide, by decide, by decide, by decide, by decide, by decide,
    fun _ h => Phase.built.inj h ▸ treeB1_inv, by decide, by decide⟩

theorem witness_EncodedCommandsDecodeBack :
    (Instr.count 0xFF).WellFormed .reference ∧ (Instr.noderd 0x1FFFF).WellFormed .reference := by
  decide

theorem witness_DecodedWordsEncodeBack :
    Config.reference.Legal ∧ decode .reference 0x0B01FFFF = .cmd (.noderd 0x1FFFF) := by decide

/-- One word for each clause, at its lowest bad operand. -/
theorem witness_BadOperandWordsBreakTheirCheck :
    Config.reference.Legal ∧ decode .reference 0x0A000001 = .badOperand .depth ∧
      decode .reference 0x09000100 = .badOperand .getfreq ∧
      decode .reference 0x06000002 = .badOperand .putbit ∧
      decode .reference 0x0B020000 = .badOperand .noderd := by decide

theorem witness_CoreTurnRunsTheDecodedCommand :
    (pending 0x020000FF).CoreNext ∧ (pending 0x020000FF).pend = some 0x020000FF ∧
      decode (pending 0x020000FF).cfg 0x020000FF = .cmd (.count 0xFF) := by decide

theorem witness_FetchedWordRunsNext : (Instr.encode 0xFF).WellFormed State.reset.cfg := by decide

/-- Both clauses: the empty slot and the completion, at the lowest unassigned word. -/
theorem witness_UnassignedWordsRaiseOpcode :
    0x0C ≤ (0x0C000000#32).toNat / 2 ^ 24 ∧ State.reset.pend = none ∧
      (pending 0x0C000000).CoreNext ∧ (pending 0x0C000000).pend = some 0x0C000000 := by decide

theorem witness_BadOperandWordsRaiseOperand :
    decode (pending 0x02000100).cfg 0x02000100 = .badOperand .count ∧
      (pending 0x02000100).CoreNext ∧ (pending 0x02000100).pend = some 0x02000100 := by decide

/-- Both forms of the CORE's turn. -/
theorem witness_IdleCoreKeepsTheState :
    (State.reset.CoreNext ∧ State.reset.pend = none) ∧
      (turns State.reset [.core]).CoreNext ∧ (turns State.reset [.core]).pend = none := by decide

/-- A completion without error and one with an error. -/
theorem witness_EveryCompletionKeepsTheBooks :
    answers (completeWord 0x00000000 State.reset) ∧
      view (completeWord 0x03000000 State.reset) State.err = some .empty :=
  ⟨⟨_, rfl⟩, by decide⟩

/-- One word for each clause. -/
theorem witness_TheFirstFailedCheckIsRaised :
    decode State.reset.cfg 0xFF000000 = .unassigned ∧
      decode State.reset.cfg 0x02000100 = .badOperand .count ∧
      (decode State.reset.cfg 0x03000000 = .cmd .build ∧ firstError .build State.reset = .empty) ∧
      (decode State.reset.cfg 0 = .cmd .nop ∧ firstError .nop State.reset = .noError ∧
        State.reset.Inv) :=
  ⟨by decide, by decide, by decide, by decide, by decide, reset_inv⟩

theorem witness_SymbolsOutsideTheAlphabetRaiseOperand : ¬ State.reset.cfg.SymFits 0x100 := by decide

/-- A completion, an idle step and a reset. -/
theorem witness_DonecntCountsCompletions :
    (answers (step (pending 0)) ∧ (pending 0).CoreNext ∧ (pending 0).pend.isSome) ∧
      answers (step State.reset) ∧
      (answers (step (turns State.reset [.reset])) ∧ (turns State.reset [.reset]).ResetNext) :=
  ⟨⟨⟨_, rfl⟩, by decide⟩, ⟨_, rfl⟩, ⟨_, rfl⟩, by decide⟩

/-- Bits 0 and 9 set, and a step that clears bit 9. -/
theorem witness_StickyBitsStayUntilCleared :
    (0x201#10).getLsbD 0 = true ∧ (0x201#10).getLsbD 9 = true ∧
      view (step (turns { State.reset with sticky := 0x201 } [.host (.wr .reference .sticky 0x200)]))
        State.sticky = some 0x001 := by decide

/-- A table with TOTAL one below FMAX = 3. -/
def nearlyFull : State :=
  { counting [(0xFF, 2)] with cfg := { Config.reference with freqw := 2 } }

theorem witness_CountAddsOneToItsSymbol :
    nearlyFull.cfg.SymFits 0xFF ∧ nearlyFull.phase = .counting ∧
      nearlyFull.total ≠ nearlyFull.cfg.fmax := by decide

/-- An empty table with FMAX = 3, which the text fills. -/
def emptySmall : State := { State.reset with cfg := { Config.reference with freqw := 2 } }

theorem witness_CountingATextTabulatesIt :
    emptySmall.phase = .counting ∧ emptySmall.cnt = [] ∧ emptySmall.nsym = 0 ∧
      emptySmall.total = 0 ∧ (∀ c ∈ [0xFF#16, 0x00, 0xFF], emptySmall.cfg.SymFits c) ∧
      [0xFF#16, 0x00, 0xFF].length ≤ emptySmall.cfg.fmax :=
  ⟨rfl, rfl, rfl, rfl, List.forall_mem_cons.2 ⟨by decide, List.forall_mem_cons.2 ⟨by decide,
    List.forall_mem_cons.2 ⟨by decide, nofun⟩⟩⟩, by decide⟩

theorem witness_GetfreqReadsTheCount : b1.cfg.SymFits 0xFF ∧ b1.Inv := ⟨by decide, b1_inv⟩

theorem witness_FrequenciesFitTheirWidth : b1.Inv ∧ b1.phase = .built treeB1 :=
  ⟨b1_inv, rfl⟩

/-- A step of each of the four clauses. -/
theorem witness_OnlyCountClearResetWriteTheTable :
    answers (step b1) ∧ (pending 0x020000FF).Completes (.count 0xFF) ∧
      (pending 0x01000000).Completes .clear ∧ (turns b1 [.reset]).ResetNext :=
  ⟨⟨_, rfl⟩, ⟨by decide, _, rfl, by decide⟩, ⟨by decide, _, rfl, by decide⟩, by decide⟩

theorem witness_BuildMakesTheTreeOfTheTable :
    (counting abc).Inv ∧ (counting abc).phase = .counting ∧ (counting abc).nsym ≠ 0 :=
  ⟨counting_abc_inv, rfl, by decide⟩

theorem witness_BuildOfOneSymbolMakesOneLeaf :
    (counting [(0xFF, 3)]).Inv ∧ (counting [(0xFF, 3)]).phase = .counting ∧
      (counting [(0xFF, 3)]).cnt = [(0xFF, 3)] := ⟨counting_one_inv, rfl, rfl⟩

theorem witness_BuildOfAnEmptyTableRaisesEmpty :
    State.reset.phase = .counting ∧ State.reset.nsym = 0 := by decide

/-- The same table, with bits in the packer. -/
def abcPartial : State := { counting abc with pkbits := 3 }

theorem witness_BuildDependsOnlyOnTheCounts :
    (counting abc).cfg = abcPartial.cfg ∧
      (∀ x < (counting abc).cfg.nsymMax, (counting abc).cnt.read x = abcPartial.cnt.read x) ∧
      view (exec .build (counting abc)) State.err = some .noError ∧
      view (exec .build abcPartial) State.err = some .noError := by
  refine ⟨rfl, fun _ _ => rfl, ?_⟩
  decide +kernel

/-- The three elements of R132's example, and an ordered start. -/
theorem witness_ScanPicksTheTwoSmallestFromAnOrderedStart :
    (freqAt treeB2.nodes 0 = 5 ∧ freqAt treeB2.nodes 1 = 1 ∧ freqAt treeB2.nodes 2 = 3) ∧
      freqAt treeB2.nodes 1 ≤ freqAt treeB2.nodes 2 ∧
      select treeB2.nodes [1, 2, 0] = some (1, 2) := by decide

theorem witness_DepthMeasuresTheTree : b1.Inv ∧ b1.phase = .built treeB1 := ⟨b1_inv, rfl⟩

/-- The last entry of the store. -/
theorem witness_NoderdReadsTheEntry :
    b1.Inv ∧ b1.phase = .built treeB1 ∧ (2#17).toNat < treeB1.nnodes :=
  ⟨b1_inv, rfl, by decide⟩

/-- A step of each of the four clauses. -/
theorem witness_OnlyBuildClearResetChangeThePhase :
    answers (step State.reset) ∧
      (view (step ((counting abc).withPending 0x03000000)) State.phase = some (.built treeB2) ∧
        ((counting abc).withPending 0x03000000).Completes .build) ∧
      (b1.withPending 0x01000000).Completes .clear ∧ (turns b1 [.reset]).ResetNext :=
  ⟨⟨_, rfl⟩, ⟨by decide +kernel, by decide, _, rfl, by decide⟩, ⟨by decide, _, rfl, by decide⟩,
    by decide⟩

/-- A symbol with a leaf of bit 0, one with a leaf of bit 1, and one with no leaf. -/
theorem witness_ResolveReturnsTheLeafBit :
    b1.Inv ∧ b1.phase = .built treeB1 ∧ b1.cfg.SymFits 0xFF ∧
      [0x61#16, 0x62, 0xFF].map (treeB1.directCode b1.nsym) = [some false, some true, none] :=
  ⟨b1_inv, rfl, by decide, by decide⟩

theorem witness_OneLeafTreeResolvesToZero :
    (counting [(0xFF, 3)]).Inv ∧ (counting [(0xFF, 3)]).phase = .counting ∧
      (counting [(0xFF, 3)]).cnt = [((0xFF#16).toNat, 3)] := ⟨counting_one_inv, rfl, rfl⟩

/-- Six bits and seven bits in the packer, with room. -/
theorem witness_PutbitFeedsOneBit :
    ({ State.reset with pkbits := 6 } : State).pkopen = true ∧ (6#3).toNat < 7 ∧
      (7#3).toNat = 7 ∧ State.reset.fifo.length ≠ State.reset.cfg.ofifoDepth := by decide

theorem witness_EightBitsMakeOneByteMsbFirst :
    State.reset.pkopen = true ∧ State.reset.pkbits = 0 ∧
      [true, false, true, false, false, false, false, true].length = 8 ∧
      State.reset.fifo.length ≠ State.reset.cfg.ofifoDepth := by decide

/-- Both clauses. -/
theorem witness_CloseFlushesAndCloses :
    (State.reset.pkopen = true ∧ State.reset.pkbits = 0) ∧ partial3.pkopen = true ∧
      partial3.pkbits ≠ 0 ∧ partial3.fifo.length ≠ partial3.cfg.ofifoDepth := by decide

theorem witness_OpenStartsAStream : ({ b1 with pkopen := false } : State).pkopen = false := by decide

/-- A step of each clause: OPEN and CLOSE that complete without error, CLEAR, reset. -/
theorem witness_OnlyOpenCloseClearResetChangePkopen :
    (view (step (({ b1 with pkopen := false } : State).withPending 0x08000000)) State.err =
        some .noError ∧
      (({ b1 with pkopen := false } : State).withPending 0x08000000).Completes .openStream) ∧
      (view (step (b1.withPending 0x07000000)) State.err = some .noError ∧
        (b1.withPending 0x07000000).Completes .closeStream) ∧
      (b1.withPending 0x01000000).Completes .clear ∧ (turns b1 [.reset]).ResetNext :=
  ⟨⟨by decide, by decide, _, rfl, by decide⟩, ⟨by decide, by decide, _, rfl, by decide⟩,
    ⟨by decide, _, rfl, by decide⟩, by decide⟩

/-- A push by ENCODE, a pop by a read of OUT, and CLEAR. -/
theorem witness_FifoIsAQueue :
    view (step ({ b1 with fifo := [0x00] }.withPending 0x05000062)) State.fifo =
        some [0x00, 0x01] ∧
      view (step (turns { b1 with fifo := [0x00, 0x01] } [.host (.rd .reference .out)])) State.fifo =
        some [0x01] ∧
      view (step ({ b1 with fifo := [0x00] }.withPending 0x01000000)) State.fifo = some [] := by
  decide

/-- Bit 1 into a packer that holds three bits. -/
theorem witness_EncodeEmitsOneShiftedByte :
    partial3.Inv ∧ partial3.phase = .built treeB1 ∧ partial3.cfg.SymFits 0x62 ∧
      partial3.pkopen = true ∧ treeB1.directCode partial3.nsym 0x62 = some true ∧
      partial3.fifo.length ≠ partial3.cfg.ofifoDepth :=
  ⟨partial3_inv, rfl, by decide, by decide, by decide, by decide⟩

/-- A tree and a FIFO of two bytes, which the text fills. -/
def twoByteFifo : State := { b1 with cfg := { Config.reference with ofifoDepth := 2 } }

theorem twoByteFifo_inv : twoByteFifo.Inv :=
  ⟨by decide, by decide, by decide, by decide, by decide, by decide,
    fun _ h => Phase.built.inj h ▸ treeB1_inv, by decide, by decide⟩

theorem witness_EncodingATextEmitsItsBits :
    twoByteFifo.Inv ∧ twoByteFifo.phase = .built treeB1 ∧ twoByteFifo.pkopen = true ∧
      twoByteFifo.pkbits = 0 ∧
      (∀ c ∈ [0x61#16, 0x62], twoByteFifo.cfg.SymFits c ∧
        (treeB1.directCode twoByteFifo.nsym c).isSome) ∧
      twoByteFifo.fifo.length + [0x61#16, 0x62].length ≤ twoByteFifo.cfg.ofifoDepth :=
  ⟨twoByteFifo_inv, rfl, rfl, rfl,
    List.forall_mem_cons.2 ⟨⟨by decide, rfl⟩, List.forall_mem_cons.2 ⟨⟨by decide, rfl⟩, nofun⟩⟩,
    by decide⟩

/-- A step of each clause: nothing, BUILD, CLEAR. -/
theorem witness_OnlyFiveCommandsWriteTheResults :
    view (step State.reset) results = some ([0, 0, 0, 0], .noError) ∧
      view (step (b2.withPending 0x0A000000)) results = some ([3, 0, 0, 0], .noError) ∧
      view (step ({ b2 with res0 := 3 }.withPending 0x01000000)) results =
        some ([0, 0, 0, 0], .noError) := by decide

/-- The three clauses: accepted, dropped, read. -/
theorem witness_CmdWritesAreAcceptedOrDropped :
    State.reset.cfg.Legal ∧ State.reset.pend = none ∧
      (turns State.reset [.host (.wr .reference .cmd 0)]).HostNext (.wr State.reset.cfg .cmd 0) ∧
      (pending 0).pend = some 0 ∧
      (turns (pending 0) [.host (.wr .reference .cmd 0)]).HostNext (.wr (pending 0).cfg .cmd 0) ∧
      (turns State.reset [.host (.rd .reference .cmd)]).HostNext (.rd State.reset.cfg .cmd) := by
  decide

/-- The three clauses: empty, not empty, a write. -/
theorem witness_OutReadsPopTheHead :
    State.reset.cfg.Legal ∧ State.reset.fifo = [] ∧
      (turns State.reset [.host (.rd .reference .out)]).HostNext (.rd State.reset.cfg .out) ∧
      ({ State.reset with fifo := [0xFF] } : State).fifo = 0xFF :: [] ∧
      (turns State.reset [.host (.wr .reference .out 1)]).HostNext
        (.wr State.reset.cfg .out 1) := by decide

theorem witness_OtherAccessesHaveNoSideEffect :
    State.reset.cfg.Legal ∧
      (turns State.reset [.host (.rd .reference .reserved)]).HostNext
        (.rd State.reset.cfg .reserved) ∧
      (turns State.reset [.host (.wr .reference .id 0)]).HostNext (.wr State.reset.cfg .id 0) := by
  decide

theorem witness_StickyWritesClearTheirBits :
    State.reset.cfg.Legal ∧
      (turns State.reset [.host (.wr .reference .sticky 0xFFFFFFFF)]).HostNext
        (.wr State.reset.cfg .sticky 0xFFFFFFFF) := by decide

theorem witness_RegistersShowTheirContents : partial3.Inv := partial3_inv

/-- A window that is not at 0, and the widest accesses that end below it and start above it. -/
theorem witness_TheWindowHoldsSixteenRegisters :
    ({ Config.reference with huffBase := 64 } : Config).Legal ∧
      (∀ k < 64, ¬ (64 ≤ 0 + k ∧ 0 + k < 64 + 64)) ∧ (∀ k < 8, ¬ (64 ≤ 128 + k ∧ 128 + k < 64 + 64)) ∧
      (turns State.reset [.host { op := .read, addr := 64, bytes := 8, allLanes := true }]).HostNext
        { op := .read, addr := 64, bytes := 8, allLanes := true } := by
  refine ⟨by decide, by omega, by omega, rfl⟩

/-- One access for each of the three ways to be undefined. -/
theorem witness_UndefinedAccessesAreHostFaults :
    ({ op := .read, addr := 0x3F, bytes := 1, allLanes := true } : HostAccess).reaches .reference ∧
      ({ op := .write 0, addr := 8, bytes := 4, allLanes := false } : HostAccess).reaches .reference ∧
      ({ op := .read, addr := 0x3E, bytes := 4, allLanes := true } : HostAccess).reaches
        .reference := by decide

theorem witness_PendingReadsShowTheOldState : b1.pend = none ∧ Reg.out ≠ .status := by decide

/-- A completion that raises EMPTY, with a clear of its bit. -/
theorem witness_StickyRaceAdmitsBothOrders :
    (pending 0x03000000).cfg.Legal ∧ (pending 0x03000000).pend = some 0x03000000 ∧
      ErrCode.empty ≠ .noError ∧
      completeWord 0x03000000 (pending 0x03000000) =
        .next ((pending 0x03000000).failedWith .empty) ∧
      (0x20#32).getLsbD ErrCode.empty.code.toNat = true :=
  ⟨by decide, by decide, by decide, rfl, by decide⟩

/-- `do NOP` with one poll that reads BUSY = 1. -/
theorem witness_DoRunsTheCommand :
    State.reset.cfg.Legal ∧ State.reset.pend = none ∧
      (turns State.reset (doCommand .reference 1 0)).turns = doCommand State.reset.cfg 1 0 ++ [] ∧
      answers (completeWord 0 { turns State.reset (doCommand .reference 1 0) with pend := some 0 }) :=
  ⟨by decide, rfl, rfl, _, rfl⟩

/-- P4's first two writes. -/
theorem witness_IssueHazardAdmitsBothOrders :
    ({ State.reset with pend := some 0x02000061 } : State).Inv ∧
      ({ State.reset with pend := some 0x02000061 } : State).pend = some 0x02000061 :=
  ⟨⟨by decide, by decide, by decide, by decide, by decide, by decide, nofun, by decide,
    by decide⟩, rfl⟩

theorem witness_ResetRestoresEveryElement : (turns b1 [.reset]).ResetNext := by decide

/-- The largest and the smallest legal parameters. -/
theorem witness_ResetMeetsTheInvariant :
    ({ symw := 16, freqw := 32, ofifoDepth := 65535, huffBase := 64 } : Config).Legal ∧
      ({ symw := 8, freqw := 1, ofifoDepth := 1, huffBase := 0 } : Config).Legal := by decide

/-- An ENCODE with bits in the packer. -/
theorem witness_EveryStepKeepsTheInvariant :
    partial3.Inv ∧
      view (step { partial3 with pend := some 0x05000062 }) packer =
        some ([0xE0], 0x20, 3, true, .noError) := ⟨partial3_inv, by decide⟩

theorem witness_InvariantStatesNeverStop : b1.Inv ∧ ∀ x ∈ b1.turns.head?, x.Admitted b1.cfg :=
  ⟨b1_inv, nofun⟩

/-- A read, a loop and the CORE's turn are admitted; the first and the last are one step each. -/
theorem witness_EveryPendingCommandCompletes :
    State.reset.Inv ∧ (Turn.host (.rd .reference .out)).Admitted .reference ∧
      (wait 3).Admitted .reference ∧ Turn.core.Admitted .reference ∧
      (Turn.host (.rd .reference .out)).single = true ∧ Turn.core.single = true :=
  ⟨reset_inv, fun _ => by decide, trivial, trivial, rfl, rfl⟩

/-- `State.reset` with these turns meets the invariant, as it reads none of them. -/
theorem turns_reset_inv (l : List Turn) : (turns State.reset l).Inv :=
  ⟨reset_inv.legal, reset_inv.table, reset_inv.alphabet, reset_inv.nsym_eq, reset_inv.total_eq,
    reset_inv.total_le, nofun, reset_inv.packer, reset_inv.fifo_le⟩

theorem witness_HostWaitsProceedOrHang :
    ((turns State.reset [wait 2]).Inv ∧ (turns State.reset [wait 2]).turns = wait 2 :: []) ∧
      (turns State.reset [awaitByte 2]).Inv ∧
      (turns State.reset [awaitByte 2]).turns = awaitByte 2 :: [] ∧
      (turns State.reset [awaitByte 2]).pend = none ∧
      (turns State.reset [awaitByte 2]).fifo = [] :=
  ⟨⟨turns_reset_inv _, rfl⟩, turns_reset_inv _, rfl, rfl, rfl⟩

theorem witness_TheConstantsAreHardwired : answers (step (turns b1 [.reset])) := ⟨_, rfl⟩

end Sys2Proof.Tests
end

section
/-! PROOFS. The state elements (10_state.md): what one step can change, said once, and from it the
obligations on DONECNT, PHASE, PKOPEN, the constants, CMD, OUT and reset. -/

namespace Sys2Proof.Machine

/-! ### CLOSE's flush: what it leaves alone (R153) -/

section Flush
variable (s : State)

@[simp] theorem flush_cfg : s.flush.cfg = s.cfg := by unfold State.flush; split <;> rfl
@[simp] theorem flush_phase : s.flush.phase = s.phase := by unfold State.flush; split <;> rfl
@[simp] theorem flush_donecnt : s.flush.donecnt = s.donecnt := by unfold State.flush; split <;> rfl

end Flush

/-! ### What the effect of a command leaves alone -/

section Effects
variable {s u : State} {i : Instr}

theorem Effect.cfg_eq (h : Effect s i u) : u.cfg = s.cfg := by
  cases h with
  | closeStream => exact flush_cfg s
  | _ => simp

/-- Only the bookkeeping of R186 counts in DONECNT. -/
theorem Effect.donecnt_eq (h : Effect s i u) : u.donecnt = s.donecnt := by
  cases h with
  | closeStream => exact flush_donecnt s
  | _ => simp

theorem Effect.phase_eq (h : Effect s i u) (hbuild : i ≠ .build) (hclear : i ≠ .clear) :
    u.phase = s.phase := by
  cases h with
  | build => exact absurd rfl hbuild
  | clear => exact absurd rfl hclear
  | closeStream => exact flush_phase s
  | _ => simp

theorem Effect.pkopen_eq (h : Effect s i u) (hclear : i ≠ .clear) (hopen : i ≠ .openStream)
    (hclose : i ≠ .closeStream) : u.pkopen = s.pkopen := by
  cases h with
  | clear => exact absurd rfl hclear
  | openStream => exact absurd rfl hopen
  | closeStream => exact absurd rfl hclose
  | _ => simp

end Effects

/-! ### What a step can do -/

/-- A HOST access writes at most PEND, STICKY, the FIFO and the record of the answer. -/
theorem hostStep_frame {a : HostAccess} {s t : State} (h : hostStep a s = .next t) :
    t = { s with pend := t.pend, sticky := t.sticky, fifo := t.fifo, reply := t.reply } := by
  rcases hostStep_next h with ⟨-, rfl⟩ | ⟨-, -, rfl⟩
  · rfl
  · rw [afterAccess_frame]

/-- What the next step of `s` makes of it: a reset, a HOST access, an idle CORE turn, a completion
that raised an error, a command completed with its effect (R70, R186, R205, R215). -/
inductive StepEffect (s : State) : State → Prop where
  | reset (hr : s.ResetNext) : StepEffect s s.turnTaken.resetNow
  | host {a : HostAccess} (ha : s.HostNext a) (p : Option Word) (k : BitVec 10) (q : List Byte)
      (r : Option Reply) :
      StepEffect s { s.turnTaken with pend := p, sticky := k, fifo := q, reply := r }
  | idle (hc : s.CoreNext) (hp : s.pend = none) : StepEffect s s.turnTaken
  | failed {w : Word} {e : ErrCode} (hc : s.CoreNext) (hp : s.pend = some w)
      (he : e ≠ .noError) : StepEffect s (s.turnTaken.bookkeep e)
  | completed {i : Instr} {u : State} (hi : s.Completes i) (hu : Effect s.turnTaken i u) :
      StepEffect s (u.bookkeep .noError)

/-- The inversion of `step`. -/
theorem step_effect {s t : State} (h : step s = .next t) : StepEffect s t := by
  rcases step_next h with ⟨hc, h⟩ | ⟨a, ha, h⟩ | ⟨hr, rfl⟩
  · rcases coreStep_next h with ⟨hp, rfl⟩ | ⟨w, e, hp, he, rfl⟩ | ⟨w, i, u, hp, hd, hu, rfl⟩
    · exact .idle hc hp
    · exact .failed hc hp he
    · exact .completed ⟨hc, w, hp, hd⟩ hu
  · rw [hostStep_frame h]
    exact .host ha ..
  · exact .reset hr

/-! ### The step that completes a command -/

section Completes
variable {s t : State} {i : Instr}

theorem State.Completes.coreNext (hi : s.Completes i) : s.CoreNext := hi.1

theorem State.Completes.not_resetNext (hi : s.Completes i) : ¬ s.ResetNext := by
  simp [hi.coreNext]

theorem State.Completes.not_hostNext (hi : s.Completes i) (a : HostAccess) : ¬ s.HostNext a := by
  simp [hi.coreNext]

theorem State.Completes.pend_ne_none (hi : s.Completes i) : s.pend ≠ none := by
  obtain ⟨-, w, hp, -⟩ := hi
  simp [hp]

/-- PEND decodes to one command. -/
theorem State.Completes.unique {j : Instr} (hi : s.Completes i) (hj : s.Completes j) : i = j := by
  obtain ⟨-, w, hp, hd⟩ := hi
  obtain ⟨-, v, hp', hd'⟩ := hj
  obtain rfl : w = v := Option.some.inj (hp.symm.trans hp')
  exact Decoded.cmd.inj (hd.symm.trans hd')

theorem State.Completes.step_eq (hi : s.Completes i) : step s = exec i s.turnTaken := by
  obtain ⟨hc, w, hp, hd⟩ := hi
  rw [step_core hc]
  simp [coreStep, hp, completeWord, hd]

/-- A command that completes with ERR = NONE has had its effect. -/
theorem State.Completes.effect (hi : s.Completes i) (h : step s = .next t)
    (he : t.err = .noError) : ∃ u, Effect s.turnTaken i u ∧ t = u.bookkeep .noError := by
  rw [hi.step_eq] at h
  rcases exec_next h with ⟨e, hne, rfl⟩ | hu
  · exact absurd he hne
  · exact hu

/-- CLEAR has no check to fail (R176). -/
theorem State.Completes.eq_clearInput (hi : s.Completes .clear) (h : step s = .next t) :
    t = s.turnTaken.clearInput.bookkeep .noError := by
  rw [hi.step_eq] at h
  exact (finish_eq_next.1 h).symm

end Completes

/-! ### The obligations on DONECNT, PHASE, PKOPEN and the constants -/

/-- Settles O14: only the bookkeeping of a completion and reset write DONECNT. -/
theorem donecntCountsCompletions : Obligations.DonecntCountsCompletions := by
  intro s t h
  cases step_effect h with
  | reset hr => rw [if_pos hr]; rfl
  | host ha => rw [if_neg (by simp [ha]), if_neg (by simp [ha])]; rfl
  | idle hc hp => rw [if_neg (by simp [hc]), if_neg (by simp [hp])]; rfl
  | failed hc hp => rw [if_neg (by simp [hc]), if_pos ⟨hc, by simp [hp]⟩]; rfl
  | completed hi hu =>
    rw [if_neg hi.not_resetNext, if_pos ⟨hi.coreNext, Option.isSome_iff_ne_none.2 hi.pend_ne_none⟩,
      bookkeep_donecnt, hu.donecnt_eq, turnTaken_donecnt]

/-- Settles O30, by the five kinds of step; CLEAR never fails, so a failed completion is not CLEAR. -/
theorem onlyBuildClearResetChangeThePhase : Obligations.OnlyBuildClearResetChangeThePhase := by
  intro s t h
  cases step_effect h with
  | reset hr => exact .inr (.inr (.inr ⟨hr, rfl⟩))
  | host ha =>
    exact .inl ⟨rfl, by simp [ha], fun hi => hi.not_hostNext _ ha, fun hi => hi.1.not_hostNext _ ha⟩
  | idle hc hp =>
    exact .inl ⟨rfl, by simp [hc], fun hi => hi.pend_ne_none hp, fun hi => hi.1.pend_ne_none hp⟩
  | failed hc hp he =>
    refine .inl ⟨rfl, by simp [hc], fun hi => he ?_, fun hi => he hi.2⟩
    simpa using congrArg State.err (hi.eq_clearInput h)
  | @completed i u hi hu =>
    by_cases hb : i = .build
    · subst hb
      cases hu with
      | build hp => exact .inr (.inl ⟨hi, rfl, hp, _, rfl⟩)
    by_cases hc : i = .clear
    · subst hc
      cases hu
      exact .inr (.inr (.inl ⟨hi, rfl⟩))
    exact .inl ⟨hu.phase_eq hb hc, hi.not_resetNext, fun hi' => hc (hi.unique hi'),
      fun hi' => hb (hi.unique hi'.1)⟩

/-- No event but the four of R28 changes PKOPEN. -/
theorem step_pkopen_eq {s t : State} (h : step s = .next t) :
    t.pkopen = s.pkopen ∨ s.ResetNext ∨ s.Completes .clear ∨
      ((s.Completes .openStream ∨ s.Completes .closeStream) ∧ t.err = .noError) := by
  cases step_effect h with
  | reset hr => exact .inr (.inl hr)
  | host ha => exact .inl rfl
  | idle hc hp => exact .inl rfl
  | failed hc hp he => exact .inl rfl
  | @completed i u hi hu =>
    by_cases hclear : i = .clear
    · exact .inr (.inr (.inl (hclear ▸ hi)))
    by_cases hopen : i = .openStream
    · exact .inr (.inr (.inr ⟨.inl (hopen ▸ hi), rfl⟩))
    by_cases hclose : i = .closeStream
    · exact .inr (.inr (.inr ⟨.inr (hclose ▸ hi), rfl⟩))
    exact .inl (hu.pkopen_eq hclear hopen hclose)

/-- Settles O37: each of the four events by its own next state, the others by `step_pkopen_eq`. -/
theorem onlyOpenCloseClearResetChangePkopen : Obligations.OnlyOpenCloseClearResetChangePkopen := by
  intro s t h
  refine ⟨fun hr => ?reset, fun hi => ?clear, fun hi he => ?opened, fun hi he => ?closed,
    step_pkopen_eq h⟩
  case reset =>
    rw [step_reset hr] at h
    cases h
    rfl
  case clear => rw [hi.eq_clearInput h]; rfl
  case opened =>
    obtain ⟨u, hu, rfl⟩ := hi.effect h he
    cases hu
    rfl
  case closed =>
    obtain ⟨u, hu, rfl⟩ := hi.effect h he
    cases hu
    rfl

/-- The configuration is hardwired (R23). -/
theorem step_cfg {s t : State} (h : step s = .next t) : t.cfg = s.cfg := by
  cases step_effect h with
  | reset | host | idle | failed => rfl
  | completed hi hu => exact hu.cfg_eq

/-- Settles O60: ID is a constant of the read, CFG a view of the hardwired configuration. -/
theorem theConstantsAreHardwired : Obligations.TheConstantsAreHardwired := by
  intro s t h
  have hcfg := step_cfg h
  exact ⟨rfl, hcfg, congrArg Config.word hcfg⟩

/-! ### CMD, OUT and reset -/

section Window
variable {s : State}

theorem offer_of_empty (h : s.pend = none) (v : Word) : s.offer v = { s with pend := some v } := by
  simp [State.offer, h]

theorem offer_of_pending {w : Word} (h : s.pend = some w) (v : Word) :
    s.offer v = { s with sticky := s.sticky ||| 1#10 } := by
  simp only [State.offer, h]; rfl

theorem afterRead_out_of_empty (h : s.fifo = []) : s.afterRead .out = s := by
  obtain ⟨⟩ := s
  cases h
  rfl

theorem outWord_of_empty (h : s.fifo = []) : s.outWord = 0 := by simp [State.outWord, h]

/-- R33's {23'b0, 1'b1, head} as a number. -/
theorem outWord_of_head {b : Byte} {rest : List Byte} (h : s.fifo = b :: rest) :
    s.outWord = BitVec.ofNat 32 (0x100 + b.toNat) := by
  have happend : s.outWord.toNat = 0x100 + b.toNat := by
    rw [State.outWord, h]
    exact toNat_append_eq (0#23 ++ 1#1) b
  rw [← happend, BitVec.ofNat_toNat, BitVec.setWidth_eq]

/-- After reset only PKOPEN of STATUS is 1 (R50). -/
theorem resetNow_status (s : State) : s.resetNow.status = 0x00000008 := by
  simp [State.status, State.resetNow, State.resetWith, ErrCode.code, Phase.bits, State.busy]

end Window

/-- Settles O42, by the two cases of `State.offer`. -/
theorem cmdWritesAreAcceptedOrDropped : Obligations.CmdWritesAreAcceptedOrDropped := by
  intro s hl
  refine ⟨fun v hn hp => ?_, fun v w hn hp => ?_, fun hn => step_rd hl hn⟩
  · rw [step_wr hl hn, State.afterWrite, offer_of_empty (s := s.turnTaken) hp]
  · rw [step_wr hl hn, State.afterWrite, offer_of_pending (s := s.turnTaken) hp]
    rfl

/-- Settles O43, by the two cases of the FIFO. -/
theorem outReadsPopTheHead : Obligations.OutReadsPopTheHead := by
  intro s hl
  refine ⟨fun hn hf => ?_, fun b rest hn hf => ?_, fun v hn => step_wr hl hn⟩
  · rw [step_rd hl hn, afterRead_out_of_empty (s := s.turnTaken) hf, State.readReg,
      outWord_of_empty (s := s.turnTaken) hf]
  · rw [step_rd hl hn, State.readReg, outWord_of_head (s := s.turnTaken) hf, State.afterRead,
      turnTaken_fifo, hf]
    rfl

/-- Settles O54: the next state is `resetNow`, whose one field that is not R50's constant is the turns
to come. -/
theorem resetRestoresEveryElement : Obligations.ResetRestoresEveryElement := by
  intro s hr
  refine ⟨_, step_reset hr, resetNow_status _, ?_⟩
  have hturns : s.turnsAfter = s.turns.tail := turnsAfter_single (turns_of_resetNext hr) rfl
  simp [State.resetNow, State.resetWith, hturns]

end Sys2Proof.Machine
end

section
/-! PROOFS. Memory access and ordering (20_memory.md): an undefined access, and the race of a HOST
clear with a completion's set of one STICKY bit. -/

namespace Sys2Proof.Machine

/-! ### Undefined accesses (R62) -/

section Undefined
variable {s : State} {a : HostAccess}

/-- An access of another width, with a byte enable off, or misaligned is not R62's. -/
theorem isDefined_eq_false {c : Config} (h : a.bytes ≠ 4 ∨ a.allLanes = false ∨ a.addr % 4 ≠ 0) :
    a.isDefined c = false := by
  rcases h with h | h | h <;> simp [HostAccess.isDefined, h]

theorem answer_of_undefined (h : a.isDefined s.cfg = false) : s.answer a = .busError := by
  simp [State.answer, h]

theorem afterAccess_of_undefined (h : a.isDefined s.cfg = false) : s.afterAccess a = s := by
  simp [State.afterAccess, h]

/-- The model's HOST fault (log entry 5). -/
theorem hostStep_of_undefined (hr : a.reaches s.cfg = true) (h : a.isDefined s.cfg = false) :
    hostStep a s = .fault (.undefinedAccess a) := by
  simp [hostStep, hr, answer_of_undefined h]

end Undefined

/-- Settles O49: such an access is not defined, so it is answered, ignored and stopped on as R62 has
it. -/
theorem undefinedAccessesAreHostFaults : Obligations.UndefinedAccessesAreHostFaults := by
  intro s a hr h
  have hd : a.isDefined s.cfg = false := isDefined_eq_false h
  have ha : s.answer a = .busError := answer_of_undefined hd
  refine ⟨ha, by rw [ha]; rfl, afterAccess_of_undefined hd, fun hn => ?_⟩
  rw [step_host hn]
  exact hostStep_of_undefined (s := s.turnTaken) hr hd

/-! ### The error a command ends with (R187) -/

/-- `r` is what a command of `s` answers whose first failed check raises `e` (noError where none fails):
its next state, where it has one, shows `e`, and an error is raised with no other effect (R188). -/
structure EndsWith (s : State) (e : ErrCode) (r : Result) : Prop where
  err_eq : ∀ t, r = .next t → t.err = e
  eq_raise : e ≠ .noError → r = raise e s

section EndsWith
variable {s : State} {i : Instr} {e : ErrCode} {r : Result}

theorem endsWith_raise (s : State) (e : ErrCode) : EndsWith s e (raise e s) :=
  ⟨fun _ h => (congrArg State.err (raise_eq_next.1 h)).symm, fun _ => rfl⟩

theorem endsWith_finish (s u : State) : EndsWith s .noError (finish u) :=
  ⟨fun _ h => (congrArg State.err (finish_eq_next.1 h)).symm, fun h => absurd rfl h⟩

theorem endsWith_fault (s : State) (f : Fault) : EndsWith s .noError (.fault f) :=
  ⟨fun _ h => (nomatch h), fun h => absurd rfl h⟩

/-- One check, failing where `bad` holds, in front of a list of checks. -/
theorem endsWith_require {ok bad : Prop} [Decidable ok] [Decidable bad] {e' : ErrCode}
    (hbad : bad ↔ ¬ ok) (h : ok → EndsWith s e r) :
    EndsWith s (if bad then e' else e) (require ok e' s r) := by
  by_cases hok : ok
  · rw [if_neg (mt hbad.1 (not_not_intro hok)), require_pos hok]
    exact h hok
  · rw [if_pos (hbad.2 hok), require_neg hok]
    exact endsWith_raise s e'

/-- A read of the node store with no check after it. -/
theorem endsWith_withValue {α : Type} (s : State) (x : Except Fault α) (u : α → State) :
    EndsWith s .noError (withValue x fun a => finish (u a)) := by
  cases x with
  | error f => exact endsWith_fault s f
  | ok a => exact endsWith_finish s (u a)

/-- PHASE unless there is a tree, with no check after it. -/
theorem endsWith_withStore {k : NodeStore → Result} (h : ∀ t, EndsWith s .noError (k t)) :
    EndsWith s (if s.phase.isBuilt then .noError else .phase) (withStore s k) := by
  cases hp : s.phase with
  | counting => rw [withStore_counting hp]; exact endsWith_raise s .phase
  | built t => rw [withStore_built hp]; exact h t

theorem isBuilt_iff {p : Phase} : p.isBuilt = true ↔ ¬ p = .counting := by
  cases p <;> simp [Phase.isBuilt]

/-- The model's second check (log entry 7). -/
theorem exec_of_not_wellFormed (h : ¬ i.WellFormed s.cfg) : exec i s = raise .operand s := by
  cases i with
  | count | resolve | encode | getfreq => exact require_neg (fun hf => h (decide_eq_true hf)) ..
  | _ => exact absurd rfl h

theorem exec_endsWith_of_wellFormed (hw : i.WellFormed s.cfg) :
    EndsWith s (firstError i s) (exec i s) := by
  rw [firstError.eq_def, if_neg (not_not_intro hw)]
  cases i with
  | nop | clear => exact endsWith_finish ..
  | getfreq sym =>
    rw [exec, execGetfreq, require_pos (of_decide_eq_true hw)]
    exact endsWith_finish ..
  | count sym =>
    rw [exec, execCount, require_pos (of_decide_eq_true hw)]
    exact endsWith_require isBuilt_iff fun _ =>
      endsWith_require not_not.symm fun _ => endsWith_finish ..
  | build =>
    refine endsWith_require isBuilt_iff fun _ => endsWith_require not_not.symm fun _ => ?_
    cases buildStore s.cfg s.cnt with
    | none => exact endsWith_fault ..
    | some t => exact endsWith_finish ..
  | resolve sym =>
    rw [exec, execResolve, require_pos (of_decide_eq_true hw)]
    exact endsWith_withStore fun _ => endsWith_withValue ..
  | depth => exact endsWith_withStore fun _ => endsWith_withValue ..
  | noderd idx =>
    rw [exec, execNoderd]
    cases hp : s.phase with
    | counting => rw [withStore_counting hp]; exact endsWith_raise ..
    | built t =>
      rw [withStore_built hp]
      exact endsWith_require Nat.not_lt.symm fun _ => endsWith_withValue ..
  | encode sym =>
    rw [exec, execEncode, require_pos (of_decide_eq_true hw)]
    cases hp : s.phase with
    | counting => rw [withStore_counting hp]; exact endsWith_raise ..
    | built t =>
      rw [withStore_built hp]
      refine endsWith_require (by simp) fun _ => ?_
      rcases lookup t sym with f | _ | b
      · exact endsWith_fault ..
      · exact endsWith_raise ..
      · exact endsWith_require not_not.symm fun _ => endsWith_finish ..
  | putbit b =>
    exact endsWith_require (by simp) fun _ =>
      endsWith_require not_not.symm fun _ => endsWith_finish ..
  | closeStream =>
    exact endsWith_require (by simp) fun _ =>
      endsWith_require not_not.symm fun _ => endsWith_finish ..
  | openStream => exact endsWith_require (by simp) fun _ => endsWith_finish ..

/-- R187: what `exec` answers is what the check list of its command says. -/
theorem exec_endsWith (i : Instr) (s : State) : EndsWith s (firstError i s) (exec i s) := by
  by_cases hw : i.WellFormed s.cfg
  · exact exec_endsWith_of_wellFormed hw
  · rw [exec_of_not_wellFormed hw, firstError.eq_def, if_pos hw]
    exact endsWith_raise ..

end EndsWith

/-- The error that the completion of `w` raises, noError for none: OPCODE, OPERAND (R93), or the first
failed check of the command (R187). -/
def wordError (w : Word) (s : State) : ErrCode :=
  match decode s.cfg w with
  | .cmd i => firstError i s
  | .badOperand _ => .operand
  | .unassigned => .opcode

/-- No check looks at STICKY, at the turns to come or at the latest answer. -/
theorem wordError_withSticky (w : Word) (s : State) (k : BitVec 10) (l : List Turn)
    (r : Option Reply) :
    wordError w { s with sticky := k, turns := l, reply := r } = wordError w s := rfl

theorem completeWord_endsWith (w : Word) (s : State) :
    EndsWith s (wordError w s) (completeWord w s) := by
  unfold wordError completeWord
  cases decode s.cfg w with
  | cmd i => exact exec_endsWith i s
  | badOperand op => exact endsWith_raise s .operand
  | unassigned => exact endsWith_raise s .opcode

/-- R186's bookkeeping of an error, with its STICKY bit written out. -/
theorem bookkeep_eq_failedWith (s : State) {e : ErrCode} (he : e ≠ .noError) :
    s.bookkeep e = s.failedWith e := by
  simp [State.bookkeep, State.failedWith, stickyAfter, he, stickySet]

theorem completeWord_failed {w : Word} {s : State} {e : ErrCode} (h : wordError w s = e)
    (he : e ≠ .noError) : completeWord w s = .next (s.failedWith e) := by
  subst h
  rw [(completeWord_endsWith w s).eq_raise he, raise, bookkeep_eq_failedWith s he]

/-! ### The race of R73 -/

theorem coreStep_pending {s : State} {w : Word} (h : s.pend = some w) :
    coreStep s = completeWord w s := by
  simp [coreStep, h]

/-- A step that is a completion which raises `e`. -/
theorem step_failed {s : State} {w : Word} {e : ErrCode} (hc : s.CoreNext) (hp : s.pend = some w)
    (h : wordError w s = e) (he : e ≠ .noError) : step s = .next (s.turnTaken.failedWith e) := by
  rw [step_core hc, coreStep_pending (s := s.turnTaken) hp]
  exact completeWord_failed h he

/-- A step that is a HOST clear of STICKY (R39). -/
theorem step_clearSticky {s : State} {c : Config} {v : Word} (hn : s.HostNext (.wr c .sticky v))
    (hc : s.cfg = c) (hl : c.Legal) :
    step s = .next { s.turnTaken with
      sticky := stickyClear s.sticky v
      reply := some .done } := by
  subst hc
  exact step_wr hl hn

theorem run_two {s t u : State} (h : step s = .next u) (h' : step u = .next t) :
    core.run 2 s = .next t := by
  rw [run_succ h, run_succ h', run_zero]

/-- A bit written as 1 is 0 after the clear (R39). -/
theorem getLsbD_stickyClear (k : BitVec 10) {v : Word} {n : Nat} (h : v.getLsbD n = true) :
    (stickyClear k v).getLsbD n = false := by
  simp [stickyClear, h]

/-- The bit of the error raised is 1 after the completion (R186). -/
theorem getLsbD_failedWith (s : State) (e : ErrCode) :
    (s.failedWith e).sticky.getLsbD e.code.toNat = true := by
  cases e <;> simp [State.failedWith, ErrCode.code]

/-- Settles O52: both are steps in either order, since the completion's error does not depend on STICKY
(`wordError_withSticky`), and the second step decides the bit. -/
theorem stickyRaceAdmitsBothOrders : Obligations.StickyRaceAdmitsBothOrders := by
  intro s w v e hl hp he hc hv
  have hw : wordError w s = e := ((completeWord_endsWith w s).err_eq _ hc).symm
  constructor
  case left =>
    exact ⟨_, run_two (step_failed rfl hp hw he) (step_clearSticky rfl rfl hl),
      getLsbD_stickyClear _ hv⟩
  case right =>
    exact ⟨_, run_two (step_clearSticky rfl rfl hl)
      (step_failed rfl hp ((wordError_withSticky ..).trans hw) he), getLsbD_failedWith _ e⟩

end Sys2Proof.Machine
end

section
/-! PROOFS. Encoding (30_encoding.md): the unassigned opcodes of R93. -/

namespace Sys2Proof.Machine

/-- OPC is w[31:24] (R90). -/
theorem opcField_toNat (w : Word) : (opcField w).toNat = w.toNat / 2 ^ 24 := by
  have hquot : w.toNat / 2 ^ 24 < 2 ^ 8 := by omega
  rw [opcField, BitVec.extractLsb'_toNat, Nat.shiftRight_eq_div_pow, Nat.mod_eq_of_lt hquot]

/-- No row of R92 has an opcode above 0x0B, so the operand is not looked at. -/
theorem decode_of_high_opc (c : Config) {w : Word} (h : 0x0C ≤ w.toNat / 2 ^ 24) :
    decode c w = .unassigned := by
  have hrow : Opcode.ofBits? (opcField w) = none :=
    (ofBits?_eq_none_iff _).2 (by rwa [opcField_toNat])
  simp [decode, hrow]

theorem wordError_of_unassigned {w : Word} {s : State} (h : decode s.cfg w = .unassigned) :
    wordError w s = .opcode := by simp [wordError, h]

/-- Settles O8: PEND does not look at the word it accepts (`offer_of_empty`), and the completion of a
word without a row of R92 is a failed one (`step_failed`). -/
theorem unassignedWordsRaiseOpcode : Obligations.UnassignedWordsRaiseOpcode := by
  intro s w h
  have herr : wordError w s = .opcode := wordError_of_unassigned (decode_of_high_opc s.cfg h)
  exact ⟨fun hempty => offer_of_empty hempty w, fun hc hp => step_failed hc hp herr nofun⟩

end Sys2Proof.Machine
end

section
/-! PROOFS. The tree builder (41_tree_builder.md): BUILD of an empty table and of one entry, and what
the scan of R123 selects. -/

namespace Sys2Proof.Machine

/-! ### How BUILD completes (R120, R128) -/

/-- BUILD past its two checks writes the store it makes and R126's results. -/
theorem exec_build_of_store {s : State} {st : NodeStore} (hp : s.phase = .counting)
    (hn : s.nsym ≠ 0) (hst : buildStore s.cfg s.cnt = some st) :
    exec .build s = .next { s.succeeded with
      phase := .built st
      res0 := BitVec.ofNat 32 st.root
      res1 := BitVec.ofNat 32 (makeLeaves s.cfg s.cnt).length
      res2 := BitVec.ofNat 32 st.nnodes
      res3 := 0 } := by
  rw [exec, execBuild, require_pos hp, require_pos hn, hst]
  rfl

/-- Settles O25: NSYM = 0 is the second check of BUILD, and a raised error is R188's failed completion
(`bookkeep_eq_failedWith`). -/
theorem buildOfAnEmptyTableRaisesEmpty : Obligations.BuildOfAnEmptyTableRaisesEmpty := by
  intro s hp hn
  rw [exec, execBuild, require_pos hp, require_neg (not_not_intro hn), raise,
    bookkeep_eq_failedWith s (by decide : ErrCode.empty ≠ .noError)]

/-! ### One leaf (R127) -/

/-- One leaf leaves nothing to merge: `select` has no pair, and the leaf is the root. -/
theorem buildStore_of_one_leaf {c : Config} {t : FreqTable} {e : Node} (h : makeLeaves c t = [e]) :
    buildStore c t = some { nodes := [e], nnodes := 1, root := 0 } := by
  rw [buildStore, h]
  rfl

/-- Settles O24: the table's one entry gives one leaf (`makeLeaves_eq_map`), which is the whole
store. -/
theorem buildOfOneSymbolMakesOneLeaf : Obligations.BuildOfOneSymbolMakesOneLeaf := by
  intro s k n hinv hp hcnt
  have hleaves : makeLeaves s.cfg s.cnt = [Node.newLeaf k n] := by
    rw [makeLeaves_eq_map hinv.table hinv.alphabet, hcnt]
    rfl
  have hn : s.nsym ≠ 0 := by simp [hinv.nsym_eq, hcnt]
  rw [exec_build_of_store hp hn (buildStore_of_one_leaf hleaves), hleaves]
  rfl

/-! ### What the scan keeps (R123, R132) -/

/-- The candidates `c` are in order, and no other element of `W` has a smaller frequency than
candidate-2. -/
structure TwoSmallest (nodes : List Node) (W : List Nat) (c : Nat × Nat) : Prop where
  ordered : freqAt nodes c.1 ≤ freqAt nodes c.2
  least : ∀ v ∈ W, v = c.1 ∨ v = c.2 ∨ freqAt nodes c.2 ≤ freqAt nodes v

section Scan
variable {nodes : List Node} {W : List Nat} {c : Nat × Nat}

theorem twoSmallest_of_le {a b : Nat} (h : freqAt nodes a ≤ freqAt nodes b) :
    TwoSmallest nodes [a, b] (a, b) := ⟨h, by simp⟩

/-- New candidates `d` that still have candidate-1 among them, and a candidate-2 no larger than before,
take `v` into account. -/
theorem TwoSmallest.append (h : TwoSmallest nodes W c) {d : Nat × Nat} {v : Nat}
    (hord : freqAt nodes d.1 ≤ freqAt nodes d.2) (hle : freqAt nodes d.2 ≤ freqAt nodes c.2)
    (hfirst : c.1 = d.1 ∨ c.1 = d.2) (hv : v = d.1 ∨ v = d.2 ∨ freqAt nodes d.2 ≤ freqAt nodes v) :
    TwoSmallest nodes (W ++ [v]) d := by
  refine ⟨hord, fun u hu => ?_⟩
  obtain hu | hu := List.mem_append.1 hu
  · obtain rfl | rfl | hu := h.least u hu
    · exact hfirst.imp_right .inl
    · exact .inr (.inr hle)
    · exact .inr (.inr (hle.trans hu))
  · obtain rfl := List.mem_singleton.1 hu
    exact hv

/-- Candidate-1 stays or moves to candidate-2, so a step of the scan loses nothing. -/
theorem twoSmallest_scanStep (h : TwoSmallest nodes W c) (v : Nat) :
    TwoSmallest nodes (W ++ [v]) (scanStep nodes c v) := by
  unfold scanStep
  split
  case isTrue hlt => exact h.append hlt.le h.ordered (.inr rfl) (.inl rfl)
  case isFalse hge =>
    split
    case isTrue hlt => exact h.append (not_lt.1 hge) hlt.le (.inl rfl) (.inr (.inl rfl))
    case isFalse hge' => exact h.append h.ordered le_rfl (.inl rfl) (.inr (.inr (not_lt.1 hge')))

theorem twoSmallest_foldl_scanStep (h : TwoSmallest nodes W c) (rest : List Nat) :
    TwoSmallest nodes (W ++ rest) (rest.foldl (scanStep nodes) c) := by
  induction rest generalizing W c with
  | nil => simpa using h
  | cons v rest ih => simpa using ih (twoSmallest_scanStep h v)

/-- A third element below candidate-1 displaces it, and candidate-1 displaces candidate-2 without a
comparison, however small candidate-2 is. -/
theorem select_of_third_lt_first {a x : Nat} (b : Nat) (h : freqAt nodes x < freqAt nodes a) :
    select nodes [a, b, x] = some (x, a) := by
  simp [select, scanStep, h]

end Scan

/-- Settles O27: R132's example is an unordered start (`select_of_third_lt_first`), two elements leave
nothing to scan, and an ordered start has `TwoSmallest`, which the scan keeps. -/
theorem scanPicksTheTwoSmallestFromAnOrderedStart :
    Obligations.ScanPicksTheTwoSmallestFromAnOrderedStart := by
  intro nodes
  refine ⟨?unordered, fun _ _ => rfl, ?ordered⟩
  case unordered =>
    intro a b x ha _ hx
    exact select_of_third_lt_first b (by omega)
  case ordered =>
    intro a b rest c1 c2 hab hsel
    have hc : rest.foldl (scanStep nodes) (a, b) = (c1, c2) := Option.some.inj hsel
    have hsmallest := twoSmallest_foldl_scanStep (twoSmallest_of_le hab) rest
    rw [hc] at hsmallest
    exact ⟨hsmallest.ordered, hsmallest.least⟩

end Sys2Proof.Machine
end

section
/-! PROOFS. The code resolver (42_code_resolver.md): how RESOLVE completes, and the tree of one leaf. -/

namespace Sys2Proof.Machine

/-- RESOLVE past its two checks writes the result of the search (R140). -/
theorem exec_resolve_of_lookup {s : State} {sym : Symbol} {t : NodeStore} {r : Option Bool}
    (hf : s.cfg.SymFits sym) (hp : s.phase = .built t) (hr : lookup t sym = .ok r) :
    exec (.resolve sym) s = .next { s.succeeded with
      res0 := codeWord r
      res1 := 0
      res2 := 0
      res3 := 0 } := by
  rw [exec, execResolve, require_pos hf, withStore_built hp, hr, withValue_ok]
  rfl

/-- The search of R142 ends at a root that is the leaf of the symbol. -/
theorem lookup_of_root_leaf {t : NodeStore} {e : Node} (he : t.entry? t.root = some e)
    (hk : e.kind = .leaf) : lookup t e.sym = .ok (some e.bit) := by
  simp [lookup, lookupFrom, he, hk]

/-- Settles O32: BUILD makes the one leaf (`buildOfOneSymbolMakesOneLeaf`), which is the root
(`lookup_of_root_leaf`), and no merge has written its bit. -/
theorem oneLeafTreeResolvesToZero : Obligations.OneLeafTreeResolvesToZero := by
  intro s sym n hinv hp hcnt
  have hbuild := buildOfOneSymbolMakesOneLeaf s sym.toNat n hinv hp hcnt
  rw [BitVec.ofNat_toNat, BitVec.setWidth_eq] at hbuild
  have hfits : s.cfg.SymFits sym := hinv.alphabet (sym.toNat, n) (by simp [hcnt])
  have hlookup : lookup ⟨[⟨.leaf, sym, n, false, 0, 0⟩], 1, 0⟩ sym = .ok (some false) :=
    lookup_of_root_leaf (e := ⟨.leaf, sym, n, false, 0, 0⟩) rfl rfl
  exact ⟨_, hbuild, exec_resolve_of_lookup (r := some false) hfits rfl hlookup⟩

end Sys2Proof.Machine
end

section
/-! PROOFS. Completion and errors (60_exceptions.md): the bookkeeping of every completion (R186,
R188), and that under the invariant of R48 no command stops in a fault, so R187's list decides its end. -/

namespace Sys2Proof.Machine

/-! ### The bookkeeping (R186, R188) -/

@[simp] theorem flush_sticky (s : State) : s.flush.sticky = s.sticky := by
  unfold State.flush; split <;> rfl

/-- Only the bookkeeping of a completion sets a STICKY bit, CLEAR's included (R176). -/
theorem Effect.sticky_eq {s u : State} {i : Instr} (h : Effect s i u) : u.sticky = s.sticky := by
  cases h with
  | closeStream => exact flush_sticky s
  | _ => simp

/-- The inversion of a completion: an error and nothing else, or a command's effect; then the
bookkeeping. -/
theorem completeWord_next {w : Word} {s t : State} (h : completeWord w s = .next t) :
    (∃ e, e ≠ .noError ∧ t = s.bookkeep e) ∨
      ∃ i u, Effect s i u ∧ t = u.bookkeep .noError := by
  unfold completeWord at h
  split at h
  · next i _ => exact (exec_next h).imp_right fun hu => ⟨i, hu⟩
  · exact .inl ⟨.operand, by decide, (raise_eq_next.1 h).symm⟩
  · exact .inl ⟨.opcode, by decide, (raise_eq_next.1 h).symm⟩

/-- Settles O11, by the two ways a completion ends; a command's effect leaves STICKY and DONECNT to
the bookkeeping. -/
theorem everyCompletionKeepsTheBooks : Obligations.EveryCompletionKeepsTheBooks := by
  intro s t w h
  rcases completeWord_next h with ⟨e, he, rfl⟩ | ⟨i, u, hu, rfl⟩
  · exact ⟨rfl, rfl, rfl, rfl, fun _ => bookkeep_eq_failedWith s he⟩
  · exact ⟨rfl, rfl, congrArg (· + 1) hu.donecnt_eq, hu.sticky_eq, fun hne => absurd rfl hne⟩

/-! ### No command faults in a state of R48 -/

/-- The result is a next state: neither a fault nor a refusal. -/
def Answers (r : Result) : Prop := ∃ t, r = .next t

section Answers
variable {s : State}

theorem answers_raise (e : ErrCode) (s : State) : Answers (raise e s) := ⟨_, rfl⟩

theorem answers_finish (s : State) : Answers (finish s) := ⟨_, rfl⟩

/-- A check that fails raises its error, which is an answer. -/
theorem answers_require {ok : Prop} [Decidable ok] {e : ErrCode} {rest : Result}
    (h : ok → Answers rest) : Answers (require ok e s rest) := by
  by_cases hok : ok
  · rw [require_pos hok]; exact h hok
  · rw [require_neg hok]; exact answers_raise e s

theorem answers_withStore {k : NodeStore → Result}
    (h : ∀ t, s.phase = .built t → Answers (k t)) : Answers (withStore s k) := by
  cases hp : s.phase with
  | counting => rw [withStore_counting hp]; exact answers_raise .phase s
  | built t => rw [withStore_built hp]; exact h t hp

theorem answers_withValue {α : Type} {x : Except Fault α} {a : α} {k : α → Result}
    (hx : x = .ok a) (h : Answers (k a)) : Answers (withValue x k) := by
  rwa [hx, withValue_ok]

end Answers

/-- NODERD's range check keeps its index on a valid entry (R131). -/
theorem NodeStore.Inv.readEntry_ok {t : NodeStore} {cnt : FreqTable} (h : t.Inv cnt) {i : Nat}
    (hi : i < t.nnodes) : ∃ e, readEntry t i = .ok e := by
  obtain ⟨e, he, -⟩ := h.cases hi
  exact ⟨e, by rw [readEntry, he]⟩

/-- Past BUILD's EMPTY check (R128) the table has an entry, so there is a leaf to make ROOT (R126). -/
theorem State.Inv.buildStore_some {s : State} (h : s.Inv) (hn : s.nsym ≠ 0) :
    ∃ t, buildStore s.cfg s.cnt = some t := by
  have hne : s.cnt ≠ [] := fun hnil => hn (by simp [h.nsym_eq, hnil])
  obtain ⟨t, ht, -⟩ := buildStore_inv h.table h.alphabet hne
  exact ⟨t, ht⟩

/-- The search of R142 ends with an answer on the tree of the state. -/
theorem State.Inv.lookup_ok {s : State} {t : NodeStore} (h : s.Inv) (hp : s.phase = .built t)
    (sym : Symbol) : lookup t sym = .ok (t.directCode s.cnt.length sym) :=
  lookup_eq_directCode (h.store t hp) h.legal h.table h.alphabet sym

/-- The faults of a command are reads and walks of a node store without R48's shape. -/
theorem State.Inv.exec_answers {s : State} (h : s.Inv) (i : Instr) : Answers (exec i s) := by
  cases i with
  | nop | clear => exact answers_finish _
  | getfreq sym => exact answers_require fun _ => answers_finish _
  | count sym =>
    exact answers_require fun _ => answers_require fun _ => answers_require fun _ =>
      answers_finish _
  | build =>
    refine answers_require fun _ => answers_require fun hn => ?_
    obtain ⟨t, ht⟩ := h.buildStore_some hn
    rw [ht]
    exact answers_finish _
  | resolve sym =>
    exact answers_require fun _ => answers_withStore fun t hp =>
      answers_withValue (h.lookup_ok hp sym) (answers_finish _)
  | encode sym =>
    refine answers_require fun _ => answers_withStore fun t hp => answers_require fun _ =>
      answers_withValue (h.lookup_ok hp sym) ?_
    cases t.directCode s.cnt.length sym with
    | none => exact answers_raise ..
    | some b => exact answers_require fun _ => answers_finish _
  | putbit | closeStream =>
    exact answers_require fun _ => answers_require fun _ => answers_finish _
  | openStream => exact answers_require fun _ => answers_finish _
  | depth =>
    refine answers_withStore fun t hp => ?_
    obtain ⟨d, hd, -⟩ := treeDepth_ok (h.store t hp)
    exact answers_withValue hd (answers_finish _)
  | noderd idx =>
    refine answers_withStore fun t hp => answers_require fun hi => ?_
    obtain ⟨e, he⟩ := (h.store t hp).readEntry_ok hi
    exact answers_withValue he (answers_finish _)

/-- Settles O12: `completeWord_endsWith` ties the end to `wordError`, which the decoded word decides,
and under R48 there is an end (`State.Inv.exec_answers`). -/
theorem theFirstFailedCheckIsRaised : Obligations.TheFirstFailedCheckIsRaised := by
  intro s w
  refine ⟨fun hd => ?unassigned, fun op hd => ?badOperand, fun i hd he => ?failed,
    fun i hd he hinv => ?completed⟩
  case unassigned => exact completeWord_failed (wordError_of_unassigned hd) (by decide)
  case badOperand => exact completeWord_failed (by rw [wordError, hd]) (by decide)
  case failed => exact completeWord_failed (by rw [wordError, hd]) he
  case completed =>
    obtain ⟨t, ht⟩ : Answers (completeWord w s) := by
      rw [completeWord, hd]; exact hinv.exec_answers i
    have herr : wordError w s = .noError := by rw [wordError, hd]; exact he
    exact ⟨t, ht, ((completeWord_endsWith w s).err_eq t ht).trans herr⟩

end Sys2Proof.Machine
end

section
/-! PROOFS. Encoding (30_encoding.md): the check of R91 as a bound on the operand, the round trip
between words and commands, the words that are rejected, and the CORE's turn on a decoded word. -/

namespace Sys2Proof

/-! ### The check of R91 as a bound on the operand -/

/-- The least operand that fails the check of its kind (R91). -/
def OperandKind.bound (c : Config) : OperandKind → Nat
  | .noOperand => 1
  | .sym => 2 ^ c.symw
  | .bit => 2
  | .idx => 2 ^ 17

/-- The bits from `k` on are 0 exactly where the value is below 2^k. -/
theorem ushiftRight_eq_zero_iff {n : Nat} (x : BitVec n) (k : Nat) :
    x >>> k = 0 ↔ x.toNat < 2 ^ k := by
  rw [← BitVec.toNat_inj, BitVec.toNat_ushiftRight, Nat.shiftRight_eq_div_pow]
  simp [Nat.div_eq_zero_iff]

theorem check_iff (c : Config) (k : OperandKind) (o : BitVec 24) :
    k.check c o = true ↔ o.toNat < k.bound c := by
  cases k with
  | noOperand => simp [OperandKind.check, OperandKind.bound, ← BitVec.toNat_inj]
  | sym | bit | idx =>
    rw [OperandKind.check, beq_iff_eq, ushiftRight_eq_zero_iff]
    rfl

/-- A symbol of either SYMW of R5 fits 16 bits. -/
theorem Config.Legal.symw_le {c : Config} (h : c.Legal) : c.symw ≤ 16 := by
  obtain ⟨h, -⟩ := h
  omega

/-! ### The round trip -/

/-- The word of a command is its opcode and its operand, so the decoder finds its row. -/
theorem decode_encode_eq (c : Config) (i : Instr) : decode c (encode i) =
    if i.opcode.kind.check c i.opnd then .cmd (i.opcode.command i.opnd) else .badOperand i.opcode :=
  decode_append c i.opcode i.opnd

/-- A well-formed command's operand passes the check of its row. -/
theorem check_opnd {c : Config} {i : Instr} (h : i.WellFormed c) :
    i.opcode.kind.check c i.opnd = true := by
  cases i with
  | count sym | resolve sym | encode sym | getfreq sym =>
    have hfits : sym.toNat < 2 ^ c.symw := of_decide_eq_true h
    have hwidth : (sym.setWidth 24).toNat = sym.toNat := BitVec.toNat_setWidth_of_le (by decide)
    exact (check_iff ..).2 (hwidth.trans_lt hfits)
  | noderd idx =>
    have hwidth : (idx.setWidth 24).toNat = idx.toNat := BitVec.toNat_setWidth_of_le (by decide)
    exact (check_iff ..).2 (hwidth.trans_lt idx.isLt)
  | putbit b => cases b <;> rfl
  | _ => rfl

/-- The value column of R91 reads back the operand it was written from. -/
theorem command_opnd (i : Instr) : i.opcode.command i.opnd = i := by
  cases i with
  | count sym | resolve sym | encode sym | getfreq sym =>
    simp [Instr.opcode, Instr.opnd, Opcode.command]
  | putbit b => cases b <;> rfl
  | noderd idx => simp [Instr.opcode, Instr.opnd, Opcode.command]
  | _ => rfl

/-- Settles O1: the operand passes its check (`check_opnd`) and reads back (`command_opnd`). -/
theorem encodedCommandsDecodeBack : Obligations.EncodedCommandsDecodeBack := by
  intro c i h
  rw [decode_encode_eq, if_pos (check_opnd h), command_opnd]

theorem opcode_command (op : Opcode) (o : BitVec 24) : (op.command o).opcode = op := by
  cases op <;> rfl

/-- Zero-extending the low bits of a value that fits them gives the value. -/
theorem setWidth_setWidth_of_lt {n : Nat} {x : BitVec n} {k : Nat} (h : x.toNat < 2 ^ k) :
    (x.setWidth k).setWidth n = x := by
  apply BitVec.eq_of_toNat_eq
  rw [BitVec.toNat_setWidth, BitVec.toNat_setWidth, Nat.mod_eq_of_lt h, Nat.mod_eq_of_lt x.isLt]

/-- An operand that passed its check is written back by the command made of it. -/
theorem opnd_command {c : Config} (hc : c.Legal) {op : Opcode} {o : BitVec 24}
    (h : op.kind.check c o = true) : (op.command o).opnd = o := by
  rw [check_iff] at h
  have hsym : 2 ^ c.symw ≤ 2 ^ 16 := Nat.pow_le_pow_right (by decide) hc.symw_le
  cases op with
  | count | resolve | encode | getfreq => exact setWidth_setWidth_of_lt (h.trans_le hsym)
  | noderd => exact setWidth_setWidth_of_lt h
  | putbit =>
    have hbit : BitVec.ofBool (o.getLsbD 0) = o.setWidth 1 := by
      ext j hj
      obtain rfl : j = 0 := by omega
      simp
    show (BitVec.ofBool (o.getLsbD 0)).setWidth 24 = o
    rw [hbit]
    exact setWidth_setWidth_of_lt h
  | _ =>
    have hzero : o.toNat = 0 := Nat.lt_one_iff.1 h
    exact (BitVec.eq_of_toNat_eq hzero).symm

theorem wellFormed_command {c : Config} {op : Opcode} {o : BitVec 24}
    (h : op.kind.check c o = true) : (op.command o).WellFormed c := by
  rw [check_iff] at h
  cases op with
  | count | resolve | encode | getfreq =>
    have hle : (o.setWidth 16).toNat ≤ o.toNat := by
      rw [BitVec.toNat_setWidth]; exact Nat.mod_le ..
    exact decide_eq_true (hle.trans_lt h)
  | _ => rfl

/-- The inversion of the decoder on a command: a row of R92 whose check passed (R96). -/
theorem decode_eq_cmd {c : Config} {w : Word} {i : Instr} (h : decode c w = .cmd i) :
    ∃ op : Opcode, op.bits = opcField w ∧ op.kind.check c (opndField w) = true ∧
      i = op.command (opndField w) := by
  unfold decode at h
  split at h
  · cases h
  · next op hop =>
    split at h
    · next hcheck => exact ⟨op, bits_of_ofBits? hop, hcheck, (Decoded.cmd.inj h).symm⟩
    · cases h

/-- Settles O2: a word that decodes is its row's opcode and the operand that passed its check. -/
theorem decodedWordsEncodeBack : Obligations.DecodedWordsEncodeBack := by
  intro c w i hc h
  obtain ⟨op, hbits, hcheck, rfl⟩ := decode_eq_cmd h
  refine ⟨wellFormed_command hcheck, ?_⟩
  rw [encode, opcode_command, opnd_command hc hcheck, hbits, opc_append_opnd]

/-! ### The words the decoder rejects -/

theorem decode_eq_unassigned_iff (c : Config) (w : Word) :
    decode c w = .unassigned ↔ Opcode.ofBits? (opcField w) = none := by
  unfold decode
  split
  · next hnone => simp [hnone]
  · next op hop =>
    rw [hop]
    split <;> simp

/-- Settles O3: the words without a row of R92 (`ofBits?_eq_none_iff`). -/
theorem unassignedWordsAreTheHighOpcodes : Obligations.UnassignedWordsAreTheHighOpcodes := by
  intro c w
  rw [decode_eq_unassigned_iff, ofBits?_eq_none_iff, Machine.opcField_toNat, Nat.lt_iff_add_one_le]

/-- OPND is w[23:0] (R90). -/
theorem opndField_toNat (w : Word) : (opndField w).toNat = w.toNat % 2 ^ 24 := by
  simp [opndField]

/-- The opcodes of a kind's rows in R92. -/
def OperandKind.opcodes (k : OperandKind) : List Nat :=
  (Opcode.all.filter fun op => op.kind = k).map fun op => op.bits.toNat

theorem mem_opcodes {k : OperandKind} {n : Nat} :
    n ∈ k.opcodes ↔ ∃ op : Opcode, op.kind = k ∧ op.bits.toNat = n := by
  have hall (op : Opcode) : op ∈ Opcode.all := by cases op <;> decide
  simp [OperandKind.opcodes, hall]

/-- The inversion of the decoder on a bad operand: a row of R92 whose check failed (R96). -/
theorem decode_eq_badOperand {c : Config} {w : Word} {op : Opcode}
    (h : decode c w = .badOperand op) :
    op.bits = opcField w ∧ ¬ op.kind.check c (opndField w) = true := by
  unfold decode at h
  split at h
  · cases h
  · next op' hop =>
    split at h
    · cases h
    · next hcheck =>
      obtain rfl := Decoded.badOperand.inj h
      exact ⟨bits_of_ofBits? hop, hcheck⟩

/-- A word with a bad operand has an opcode of some kind and an operand at or past its bound. -/
theorem exists_badOperand_iff (c : Config) (w : Word) :
    (∃ op, decode c w = .badOperand op) ↔
      ∃ k : OperandKind, w.toNat / 2 ^ 24 ∈ k.opcodes ∧ k.bound c ≤ w.toNat % 2 ^ 24 := by
  simp only [mem_opcodes, ← Machine.opcField_toNat, ← opndField_toNat]
  constructor
  · rintro ⟨op, h⟩
    obtain ⟨hbits, hcheck⟩ := decode_eq_badOperand h
    exact ⟨op.kind, ⟨op, rfl, congrArg BitVec.toNat hbits⟩, not_lt.1 (mt (check_iff ..).2 hcheck)⟩
  · rintro ⟨-, ⟨op, rfl, hbits⟩, hbound⟩
    have hcheck : ¬ op.kind.check c (opndField w) = true := mt (check_iff ..).1 (not_lt.2 hbound)
    refine ⟨op, ?_⟩
    rw [← opc_append_opnd w, ← BitVec.eq_of_toNat_eq hbits, decode_append, if_neg hcheck]

/-- Settles O4, kind by kind. -/
theorem badOperandWordsBreakTheirCheck : Obligations.BadOperandWordsBreakTheirCheck := by
  intro c w _
  rw [exists_badOperand_iff]
  constructor
  · rintro ⟨k, hopc, hle⟩
    cases k with
    | noOperand => exact .inl ⟨hopc, Nat.one_le_iff_ne_zero.1 hle⟩
    | sym => exact .inr (.inl ⟨hopc, hle⟩)
    | bit => exact .inr (.inr (.inl ⟨List.mem_singleton.1 hopc, hle⟩))
    | idx => exact .inr (.inr (.inr ⟨List.mem_singleton.1 hopc, hle⟩))
  · rintro (⟨hopc, hne⟩ | ⟨hopc, hle⟩ | ⟨hopc, hle⟩ | ⟨hopc, hle⟩)
    · exact ⟨.noOperand, hopc, Nat.one_le_iff_ne_zero.2 hne⟩
    · exact ⟨.sym, hopc, hle⟩
    · exact ⟨.bit, List.mem_singleton.2 hopc, hle⟩
    · exact ⟨.idx, List.mem_singleton.2 hopc, hle⟩

/-- Settles O5: closed words, which the decoder computes. -/
theorem wordsOfTheTableDecode : Obligations.WordsOfTheTableDecode := by
  unfold Obligations.WordsOfTheTableDecode
  decide

end Sys2Proof

namespace Sys2Proof.Machine

/-! ### The CORE's turn -/

/-- Settles O9: a rejected word fails with its error (`step_failed`). -/
theorem badOperandWordsRaiseOperand : Obligations.BadOperandWordsRaiseOperand := by
  intro s w op hd hc hp
  have herr : wordError w s = .operand := by rw [wordError, hd]
  exact step_failed hc hp herr nofun

/-- Settles O6: the hypotheses are `State.Completes`, whose step is `exec`. -/
theorem coreTurnRunsTheDecodedCommand : Obligations.CoreTurnRunsTheDecodedCommand :=
  fun _ w _ hc hp hd => State.Completes.step_eq ⟨hc, w, hp, hd⟩

/-- A 32-bit word is its own value's low 32 bits. -/
theorem withFetchWord_toNat (s : State) (w : Word) :
    s.withFetchWord 32 w.toNat = s.withPending w := by
  have hlt : w.toNat % 2 ^ 32 = w.toNat := Nat.mod_eq_of_lt w.isLt
  rw [State.withFetchWord, hlt, BitVec.ofNat_toNat, BitVec.setWidth_eq]

/-- Settles O7: the word put there decodes to its command (`encodedCommandsDecodeBack`). -/
theorem fetchedWordRunsNext : Obligations.FetchedWordRunsNext := by
  intro s i h
  rw [withFetchWord_toNat]
  exact coreTurnRunsTheDecodedCommand _ _ _ rfl rfl (encodedCommandsDecodeBack s.cfg i h)

/-- Settles O10: an empty PEND gives `coreStep` nothing to complete. -/
theorem idleCoreKeepsTheState : Obligations.IdleCoreKeepsTheState := by
  intro s hc hp
  rw [step_core hc, coreStep, turnTaken_pend, hp]

/-- Settles O13: the first check of the four commands. -/
theorem symbolsOutsideTheAlphabetRaiseOperand :
    Obligations.SymbolsOutsideTheAlphabetRaiseOperand := by
  intro s sym h i hi
  have hill : ¬ i.WellFormed s.cfg := by
    simp only [List.mem_cons, List.not_mem_nil, or_false] at hi
    rcases hi with rfl | rfl | rfl | rfl <;> exact fun hw => h (of_decide_eq_true hw)
  rw [exec_of_not_wellFormed hill, raise, bookkeep_eq_failedWith s (by decide)]

/-! ### Control commands (45_control.md) -/

/-- Settles O16: the bookkeeping with code NONE leaves STICKY (R186). -/
theorem nopOnlyKeepsTheBooks : Obligations.NopOnlyKeepsTheBooks := fun _ => rfl

/-- Settles O17: R176's writes and the bookkeeping are every element of R50 but STICKY and
DONECNT. -/
theorem clearReachesTheResetState : Obligations.ClearReachesTheResetState := fun _ => rfl

end Sys2Proof.Machine
end

section
/-! PROOFS. The bit packer (43_bit_packer.md): what `put` makes of the packer, bit by bit and for a
list of bits, and the completions of PUTBIT, CLOSE and OPEN. -/

namespace Sys2Proof.Machine

/-! ### PKBUF and PKBITS (R44, R151) -/

theorem getLsbD_byteSetBit (b : Byte) (i : Nat) (v : Bool) {j : Nat} (hj : j < 8) :
    (byteSetBit b i v).getLsbD j = if j = i then v else b.getLsbD j := by
  by_cases hji : j = i
  · subst hji
    cases v <;> simp [byteSetBit, hj]
  · have hij : ¬ i = j := fun h => hji h.symm
    cases v with
    | false => simp [byteSetBit, hj, hji]
    | true => simp [byteSetBit, hji, hij]

/-- Writing 0 to a bit that is 0 changes nothing. -/
theorem byteSetBit_false {b : Byte} {i : Nat} (h : b.getLsbD i = false) :
    byteSetBit b i false = b := by
  apply BitVec.eq_of_getLsbD_eq
  intro j hj
  rw [getLsbD_byteSetBit b i false hj]
  split
  · next hji => rw [hji, h]
  · rfl

theorem pkbits_eq_seven_iff (s : State) : s.pkbits = 7 ↔ s.pkbits.toNat = 7 :=
  (BitVec.toNat_inj (y := 7#3)).symm

theorem toNat_succ_pkbits {s : State} (h : s.pkbits.toNat < 7) :
    (s.pkbits + 1).toNat = s.pkbits.toNat + 1 := by
  have hlt : s.pkbits.toNat + 1 < 2 ^ 3 := by omega
  rw [BitVec.toNat_add]
  exact Nat.mod_eq_of_lt hlt

/-- R48 (e), bit by bit: PKBUF[7−PKBITS:0] is 0. -/
theorem packerInv_iff (s : State) :
    s.PackerInv ↔ ∀ j < 8 - s.pkbits.toNat, s.pkbuf.getLsbD j = false := by
  have hmask (j : Nat) :
      (0xFF#8 >>> s.pkbits.toNat).getLsbD j = decide (j < 8 - s.pkbits.toNat) := by
    rw [BitVec.getLsbD_ushiftRight, show 0xFF#8 = BitVec.allOnes 8 from rfl,
      BitVec.getLsbD_allOnes]
    exact decide_eq_decide.2 (by omega)
  constructor
  · intro h j hj
    have hbit := congrArg (·.getLsbD j) h
    simpa [BitVec.getLsbD_and, hmask, hj] using hbit
  · intro h
    apply BitVec.eq_of_getLsbD_eq
    intro j hj
    rw [BitVec.getLsbD_and, hmask]
    by_cases hlt : j < 8 - s.pkbits.toNat
    · simp [h j hlt]
    · simp [hlt]

/-- `s` with `p` bits pending in a packer that holds `buf`. -/
def State.withPacker (s : State) (buf : Byte) (p : Nat) : State :=
  { s with pkbuf := buf, pkbits := BitVec.ofNat 3 p }

section Put
variable (s : State) {buf : Byte} {p : Nat}

theorem withPacker_self : s.withPacker s.pkbuf s.pkbits.toNat = s := by
  simp [State.withPacker]

theorem withPacker_pkbits (hp : p ≤ 7) : (s.withPacker buf p).pkbits.toNat = p :=
  Nat.mod_eq_of_lt (Nat.lt_succ_of_le hp)

/-- A bit that does not complete a byte (R151). -/
theorem put_withPacker_waits (hp : p < 7) (v : Bool) :
    (s.withPacker buf p).put v = s.withPacker (byteSetBit buf (7 - p) v) (p + 1) := by
  have hbits : (s.withPacker buf p).pkbits.toNat = p := withPacker_pkbits s hp.le
  have hne : (s.withPacker buf p).pkbits ≠ 7 := by
    rw [ne_eq, pkbits_eq_seven_iff, hbits]; omega
  rw [put_waits hne, State.pkbufWith, hbits]
  simp only [State.withPacker, BitVec.ofNat_add]
  rfl

/-- The bit that completes a byte (R151). -/
theorem put_withPacker_fills (v : Bool) :
    (s.withPacker buf 7).put v = (s.pushOut (byteSetBit buf 0 v)).withPacker 0 0 := rfl

theorem putAll_append (xs ys : List Bool) : s.putAll (xs ++ ys) = (s.putAll xs).putAll ys :=
  List.foldl_append

/-- Bits that do not complete a byte stay in the packer. -/
theorem putAll_withPacker_waits (bits : List Bool) (h : p + bits.length ≤ 7) :
    ∃ buf', (s.withPacker buf p).putAll bits = s.withPacker buf' (p + bits.length) := by
  induction bits generalizing buf p with
  | nil => exact ⟨buf, rfl⟩
  | cons v bits ih =>
    rw [List.length_cons] at h ⊢
    rw [putAll_cons, put_withPacker_waits s (by omega),
      show p + (bits.length + 1) = p + 1 + bits.length by omega]
    exact ih (by omega)

/-- Zeros fed into a packer whose free bits are 0 leave its buffer. -/
theorem putAll_withPacker_zeros (hfree : ∀ j < 8 - p, buf.getLsbD j = false) (n : Nat)
    (h : p + n ≤ 7) :
    (s.withPacker buf p).putAll (List.replicate n false) = s.withPacker buf (p + n) := by
  induction n generalizing p with
  | zero => rfl
  | succ n ih =>
    rw [List.replicate_succ, putAll_cons, put_withPacker_waits s (by omega),
      byteSetBit_false (hfree _ (by omega)), ih (fun j hj => hfree j (by omega)) (by omega),
      show p + (n + 1) = p + 1 + n by omega]

/-- Eight bits push one byte out, however many are pending before them, and leave as many. -/
theorem putAll_eight {bits : List Bool} (h : bits.length = 8) :
    ∃ b buf', s.putAll bits = (s.pushOut b).withPacker buf' s.pkbits.toNat := by
  have hp := s.pkbits.isLt
  obtain ⟨xs, v, ys, rfl, hxs⟩ : ∃ xs v ys, bits = xs ++ v :: ys ∧
      s.pkbits.toNat + xs.length = 7 := by
    refine ⟨bits.take (7 - s.pkbits.toNat), bits[7 - s.pkbits.toNat],
      bits.drop (7 - s.pkbits.toNat + 1), ?_, ?_⟩
    · rw [List.cons_getElem_drop_succ, List.take_append_drop]
    · rw [List.length_take]; omega
  have hys : ys.length = s.pkbits.toNat := by simp at h; omega
  obtain ⟨buf, hbuf⟩ := putAll_withPacker_waits s (buf := s.pkbuf) xs hxs.le
  rw [withPacker_self, hxs] at hbuf
  obtain ⟨buf', hbuf'⟩ := putAll_withPacker_waits (s.pushOut (byteSetBit buf 0 v)) (buf := 0)
    (p := 0) ys (by omega)
  refine ⟨byteSetBit buf 0 v, buf', ?_⟩
  rw [putAll_append, hbuf, putAll_cons, put_withPacker_fills, hbuf', Nat.zero_add, hys]

end Put

/-! ### The bits of one symbol (R165, R166) -/

theorem byteBits_bitByte (r : Bool) :
    byteBits (bitByte r) = List.replicate 7 false ++ [r] := by
  cases r <;> rfl

/-- The byte {7'b0, r} in the form of R166's shifts (`bitByte`). -/
abbrev bitValue (r : Bool) : Byte := if r then 1#8 else 0#8

theorem bitValue_ushiftRight_succ (r : Bool) (q : Nat) : bitValue r >>> (q + 1) = 0 := by
  rw [ushiftRight_eq_zero_iff]
  have hpow : 2 ≤ 2 ^ (q + 1) := Nat.le_self_pow (Nat.succ_ne_zero q) 2
  have hbit : (bitValue r).toNat < 2 := by cases r <;> decide
  omega

theorem byteSetBit_zero (i : Nat) (r : Bool) : byteSetBit 0 i r = bitValue r <<< i := by
  cases r
  · simp [byteSetBit, bitValue]
  · exact BitVec.zero_or

/-- R166's closed form of the eight puts of R165: with bits pending the zeros complete the byte that
holds them, and the bit of the symbol stays pending; with none the byte is that bit. -/
theorem putAll_withPacker_bitByte (s : State) {buf : Byte} {p : Nat}
    (hfree : ∀ j < 8 - p, buf.getLsbD j = false) (hp : p ≤ 7) (r : Bool) :
    (s.withPacker buf p).putAll (byteBits (bitByte r)) =
      (s.pushOut (buf ||| (bitValue r >>> p))).withPacker (bitValue r <<< (8 - p)) p := by
  rw [byteBits_bitByte]
  cases p with
  | zero =>
    obtain rfl : buf = 0 := BitVec.eq_of_getLsbD_eq fun j hj => by rw [hfree j hj]; simp
    rw [putAll_append, putAll_withPacker_zeros s hfree 7 le_rfl, putAll_cons, putAll_nil,
      put_withPacker_fills, byteSetBit_zero]
    cases r <;> rfl
  | succ q =>
    have hsplit : List.replicate 7 false ++ [r] =
        List.replicate (6 - q) false ++ false :: (List.replicate q false ++ [r]) := by
      rw [show 7 = (6 - q) + (q + 1) by omega, ← List.replicate_append_replicate,
        List.replicate_succ, List.append_assoc, List.cons_append]
    have hzero : ∀ j < 8 - 0, (0 : Byte).getLsbD j = false := fun j _ => by simp
    rw [hsplit, putAll_append, putAll_withPacker_zeros s hfree (6 - q) (by omega),
      show q + 1 + (6 - q) = 7 by omega, putAll_cons, put_withPacker_fills,
      byteSetBit_false (hfree 0 (by omega)), putAll_append,
      putAll_withPacker_zeros _ hzero q (by omega), Nat.zero_add, putAll_cons, putAll_nil,
      put_withPacker_waits _ (by omega), byteSetBit_zero, bitValue_ushiftRight_succ,
      show buf ||| 0 = buf from BitVec.or_zero, show 8 - (q + 1) = 7 - q by omega]

/-- The same of a state of R48 (e), which has its free bits 0. -/
theorem putAll_bitByte {s : State} (h : s.PackerInv) (r : Bool) :
    s.putAll (byteBits (bitByte r)) = { s with
      pkbuf := bitValue r <<< (8 - s.pkbits.toNat)
      fifo := s.fifo ++ [s.pkbuf ||| (bitValue r >>> s.pkbits.toNat)]
      bytesout := s.bytesout + 1 } := by
  have hp := s.pkbits.isLt
  have hput := putAll_withPacker_bitByte s ((packerInv_iff s).1 h) (by omega) r
  rw [withPacker_self] at hput
  rw [hput, State.withPacker, BitVec.ofNat_toNat, BitVec.setWidth_eq]
  rfl

/-! ### The completions of PUTBIT, CLOSE and OPEN (R152 to R154) -/

section Commands
variable {s : State}

theorem exec_putbit {b : Bool} (ho : s.pkopen = true) (hroom : ¬ (s.pkbits = 7 ∧ s.FifoFull)) :
    exec (.putbit b) s = finish (s.put b) := by
  rw [exec, execPutbit, require_pos ho, require_pos hroom]

theorem exec_closeStream (ho : s.pkopen = true) (hroom : ¬ (s.pkbits ≠ 0 ∧ s.FifoFull)) :
    exec .closeStream s = finish { s.flush with pkopen := false } := by
  rw [exec, execCloseStream, require_pos ho, require_pos hroom]

end Commands

/-- Settles O33: the buffer is `pkbufWith`, by the two cases of `put`. -/
theorem putbitFeedsOneBit : Obligations.PutbitFeedsOneBit := by
  intro s b ho
  refine ⟨s.pkbufWith b, fun j hj => getLsbD_byteSetBit _ _ _ hj, fun hp => ?waits,
    fun hp hroom => ?fills⟩
  case waits =>
    have hne : s.pkbits ≠ 7 := by rw [ne_eq, pkbits_eq_seven_iff]; omega
    rw [exec_putbit ho (fun h => hne h.1), put_waits hne]
    rfl
  case fills =>
    rw [exec_putbit ho (fun h => hroom h.2), put_fills ((pkbits_eq_seven_iff s).2 hp)]
    rfl

theorem execList_cons {i : Instr} {s t : State} (h : exec i s = .next t) (rest : List Instr) :
    execList (i :: rest) s = execList rest t := by
  rw [execList, h]

/-- PUTBITs that complete the byte whose first bits are pending: it has those bits, then theirs. -/
theorem execList_putbit_fills (bits : List Bool) {s : State} (ho : s.pkopen = true)
    (hlen : s.pkbits.toNat + bits.length = 8) (hroom : s.fifo.length ≠ s.cfg.ofifoDepth) :
    ∃ (t : State) (byte : Byte), execList (bits.map Instr.putbit) s = .next t ∧
      (∀ k < 8, some (byte.getLsbD (7 - k)) =
        if k < s.pkbits.toNat then some (s.pkbuf.getLsbD (7 - k)) else bits[k - s.pkbits.toNat]?) ∧
      t.fifo = s.fifo ++ [byte] ∧ t.bytesout = s.bytesout + 1 ∧ t.pkbits = 0 ∧ t.pkbuf = 0 := by
  induction bits generalizing s with
  | nil => have := s.pkbits.isLt; simp at hlen; omega
  | cons b bits ih =>
    rw [List.length_cons] at hlen
    obtain ⟨buf, hbuf, hwaits, hfills⟩ := putbitFeedsOneBit s b ho
    obtain hp | hp : s.pkbits.toNat = 7 ∨ s.pkbits.toNat < 7 := by omega
    · obtain rfl : bits = [] := List.eq_nil_of_length_eq_zero (by omega)
      refine ⟨_, buf, execList_cons (hfills hp hroom) [], fun k hk => ?_, rfl, rfl, rfl, rfl⟩
      rw [hbuf _ (by omega), hp]
      obtain hk | rfl : k < 7 ∨ k = 7 := by omega
      · rw [if_neg (by omega), if_pos hk]
      · rfl
    · have hnext : (s.pkbits + 1).toNat = s.pkbits.toNat + 1 := toNat_succ_pkbits hp
      obtain ⟨t, byte, hrun, hbyte, hstate⟩ :=
        ih (s := { s.succeeded with pkbuf := buf, pkbits := s.pkbits + 1 }) ho
          (by rw [hnext]; omega) hroom
      refine ⟨t, byte, (execList_cons (hwaits hp) _).trans hrun, fun k hk => ?_, hstate⟩
      rw [hbyte k hk, hnext, hbuf _ (by omega)]
      obtain hk | rfl | hk := Nat.lt_trichotomy k s.pkbits.toNat
      · rw [if_pos (by omega), if_neg (by omega), if_pos hk]
      · rw [if_pos (by omega), if_pos rfl, if_neg (by omega), Nat.sub_self]
        rfl
      · rw [if_neg (by omega), if_neg (by omega), List.getElem?_cons, if_neg (by omega),
          Nat.sub_add_eq]

/-- Settles O34: none of the eight bits is pending before them. -/
theorem eightBitsMakeOneByteMsbFirst : Obligations.EightBitsMakeOneByteMsbFirst := by
  intro s bits ho hp hlen hroom
  obtain ⟨t, byte, hrun, hbits, hstate⟩ :=
    execList_putbit_fills bits ho (by rw [hp]; exact (Nat.zero_add _).trans hlen) hroom
  exact ⟨t, byte, hrun, fun k hk => by simpa [hp] using hbits k hk, hstate⟩

/-- Settles O35, by the two cases of CLOSE's flush. -/
theorem closeFlushesAndCloses : Obligations.CloseFlushesAndCloses := by
  intro s ho
  refine ⟨fun hp => ?_, fun hp hroom => ?_⟩
  · rw [exec_closeStream ho (fun h => h.1 hp), State.flush, if_pos hp]
    rfl
  · rw [exec_closeStream ho (fun h => hroom h.2), State.flush, if_neg hp]
    rfl

/-- Settles O36: OPEN's one check passes. -/
theorem openStartsAStream : Obligations.OpenStartsAStream := by
  intro s ho
  rw [exec, execOpenStream, require_pos ho]
  rfl

end Sys2Proof.Machine
end

section
/-! PROOFS. What each step changes of STICKY, the frequency table, the result registers and the
FIFO, and from it that every step keeps the invariant of R48. -/

namespace Sys2Proof.Machine

/-! ### What CLOSE's flush leaves alone (R153) -/

section Flush
variable (s : State)

@[simp] theorem flush_cnt : s.flush.cnt = s.cnt := by unfold State.flush; split <;> rfl
@[simp] theorem flush_nsym : s.flush.nsym = s.nsym := by unfold State.flush; split <;> rfl
@[simp] theorem flush_total : s.flush.total = s.total := by unfold State.flush; split <;> rfl
@[simp] theorem flush_res0 : s.flush.res0 = s.res0 := by unfold State.flush; split <;> rfl
@[simp] theorem flush_res1 : s.flush.res1 = s.res1 := by unfold State.flush; split <;> rfl
@[simp] theorem flush_res2 : s.flush.res2 = s.res2 := by unfold State.flush; split <;> rfl
@[simp] theorem flush_res3 : s.flush.res3 = s.res3 := by unfold State.flush; split <;> rfl
@[simp] theorem flush_turns : s.flush.turns = s.turns := by unfold State.flush; split <;> rfl

theorem flush_aligned {s : State} (h : s.pkbits = 0) : s.flush = s := if_pos h

theorem flush_pending {s : State} (h : s.pkbits ≠ 0) :
    s.flush = (s.pushOut s.pkbuf).emptyPacker := if_neg h

end Flush

/-! ### What the effect of a command changes -/

section Effects
variable {s u : State} {i : Instr}

theorem Effect.table_eq (h : Effect s i u) (hcount : ∀ sym, i ≠ .count sym) (hclear : i ≠ .clear) :
    u.cnt = s.cnt ∧ u.nsym = s.nsym ∧ u.total = s.total := by
  cases h with
  | count => exact absurd rfl (hcount _)
  | clear => exact absurd rfl hclear
  | closeStream => exact ⟨flush_cnt s, flush_nsym s, flush_total s⟩
  | _ => simp

/-- The commands that write RES0 to RES3 (R32), CLEAR apart. -/
def Instr.writesResults : Instr → Bool
  | .build | .resolve _ | .getfreq _ | .depth | .noderd _ => true
  | .nop | .clear | .count _ | .encode _ | .putbit _ | .closeStream | .openStream => false

theorem Effect.results_eq (h : Effect s i u) (hres : Instr.writesResults i = false)
    (hclear : i ≠ .clear) :
    u.res0 = s.res0 ∧ u.res1 = s.res1 ∧ u.res2 = s.res2 ∧ u.res3 = s.res3 := by
  cases h with
  | clear => exact absurd rfl hclear
  | build | resolve | getfreq | depth | noderd => cases hres
  | closeStream => exact ⟨flush_res0 s, flush_res1 s, flush_res2 s, flush_res3 s⟩
  | _ => simp

theorem Effect.turns_eq (h : Effect s i u) : u.turns = s.turns := by
  cases h with
  | closeStream => exact flush_turns s
  | _ => simp

/-- ENCODE's eight bits push exactly one byte (R165). -/
theorem putAll_byteBits (s : State) (b : Byte) :
    ∃ b' buf, s.putAll (byteBits b) = (s.pushOut b').withPacker buf s.pkbits.toNat :=
  putAll_eight s rfl

/-- A command leaves the FIFO, pushes one byte, or is CLEAR, which empties it (R45). -/
theorem Effect.fifo_cases (h : Effect s i u) :
    u.fifo = s.fifo ∨
      (∃ b, (i = .closeStream ∨ ∃ v sym, i = .putbit v ∨ i = .encode sym) ∧
        u.fifo = s.fifo ++ [b]) ∨
      (i = .clear ∧ u.fifo = []) := by
  cases h with
  | clear => exact .inr (.inr ⟨rfl, rfl⟩)
  | @encode sym _ b =>
    obtain ⟨b', buf, hput⟩ := putAll_byteBits s (bitByte b)
    exact .inr (.inl ⟨b', .inr ⟨false, sym, .inr rfl⟩, by rw [hput]; rfl⟩)
  | @putbit v =>
    by_cases hp : s.pkbits = 7
    · exact .inr (.inl ⟨s.pkbufWith v, .inr ⟨v, 0, .inl rfl⟩, by rw [put_fills hp]; rfl⟩)
    · exact .inl (by rw [put_waits hp])
  | closeStream =>
    by_cases hp : s.pkbits = 0
    · exact .inl (by rw [flush_aligned hp])
    · exact .inr (.inl ⟨s.pkbuf, .inl rfl, by rw [flush_pending hp]; rfl⟩)
  | _ => exact .inl rfl

end Effects

/-! ### What a HOST access changes -/

section Access
variable {s t : State} {a : HostAccess}

/-- Only a read of OUT takes from the FIFO (R33). -/
theorem afterAccess_fifo (s : State) (a : HostAccess) :
    (s.afterAccess a).fifo = s.fifo ∨
      (a.op = .read ∧ Reg.ofAddress a.addr = .out ∧ (s.afterAccess a).fifo = s.fifo.tail) := by
  unfold State.afterAccess
  split
  · cases a.op with
    | read =>
      cases Reg.ofAddress a.addr with
      | out => exact .inr ⟨rfl, rfl, rfl⟩
      | _ => exact .inl rfl
    | write v =>
      cases Reg.ofAddress a.addr with
      | cmd => exact .inl (by simp only [State.afterWrite, State.offer]; split <;> rfl)
      | _ => exact .inl rfl
  · exact .inl rfl

/-- Only a write of 1 to it clears a STICKY bit (R39). -/
theorem afterAccess_sticky {k : Nat} (hk : s.sticky.getLsbD k = true) (a : HostAccess) :
    (s.afterAccess a).sticky.getLsbD k = true ∨
      ∃ v, a.op = .write v ∧ Reg.ofAddress a.addr = .sticky ∧ v.getLsbD k = true := by
  unfold State.afterAccess
  split
  · cases a.op with
    | read => cases Reg.ofAddress a.addr <;> exact .inl hk
    | write v =>
      cases Reg.ofAddress a.addr with
      | cmd =>
        refine .inl ?_
        simp only [State.afterWrite, State.offer]
        split <;> simp [hk, stickySet]
      | sticky =>
        by_cases hv : v.getLsbD k = true
        · exact .inr ⟨v, rfl, rfl, hv⟩
        · have hlt : k < 10 := BitVec.lt_of_getLsbD hk
          exact .inl (by simp [State.afterWrite, stickyClear, hk, hv, hlt])
      | _ => exact .inl hk
  · exact .inl hk

theorem hostStep_fifo (h : hostStep a s = .next t) :
    t.fifo = s.fifo ∨
      (a.op = .read ∧ Reg.ofAddress a.addr = .out ∧ t.fifo = s.fifo.tail) := by
  rcases hostStep_next h with ⟨-, rfl⟩ | ⟨-, -, rfl⟩
  · exact .inl rfl
  · exact afterAccess_fifo s a

theorem hostStep_sticky {k : Nat} (h : hostStep a s = .next t) (hk : s.sticky.getLsbD k = true) :
    t.sticky.getLsbD k = true ∨
      ∃ v, a.op = .write v ∧ Reg.ofAddress a.addr = .sticky ∧ v.getLsbD k = true := by
  rcases hostStep_next h with ⟨-, rfl⟩ | ⟨-, -, rfl⟩
  · exact .inl hk
  · exact afterAccess_sticky hk a

end Access

/-! ### Which steps change STICKY, the table, the results and the FIFO -/

theorem getLsbD_stickyAfter {sticky : BitVec 10} {k : Nat} (hk : sticky.getLsbD k = true)
    (e : ErrCode) : (stickyAfter sticky e).getLsbD k = true := by
  unfold stickyAfter
  split <;> simp [stickySet, hk]

/-- Settles O15: no completion clears a STICKY bit (`Effect.sticky_eq`, `getLsbD_stickyAfter`). -/
theorem stickyBitsStayUntilCleared : Obligations.StickyBitsStayUntilCleared := by
  intro s t k h hk
  cases step_effect h with
  | reset hr => exact .inr (.inl hr)
  | @host a ha =>
    rw [step_host ha] at h
    refine (hostStep_sticky h hk).imp_right fun ⟨v, hv⟩ => .inr ⟨a, v, ha, hv⟩
  | idle => exact .inl hk
  | failed => exact .inl (getLsbD_stickyAfter hk _)
  | completed hi hu => exact .inl (by rw [bookkeep_sticky, hu.sticky_eq]; exact hk)

/-- Settles O22, by the kinds of step and `Effect.table_eq`. -/
theorem onlyCountClearResetWriteTheTable : Obligations.OnlyCountClearResetWriteTheTable := by
  intro s t h
  cases step_effect h with
  | reset hr => exact .inr (.inr (.inr hr))
  | host | idle | failed => exact .inl ⟨rfl, rfl, rfl⟩
  | @completed i u hi hu =>
    by_cases hcount : ∃ sym, i = .count sym
    · obtain ⟨sym, rfl⟩ := hcount
      exact .inr (.inl ⟨sym, hi, rfl⟩)
    by_cases hclear : i = .clear
    · exact .inr (.inr (.inl (hclear ▸ hi)))
    exact .inl (hu.table_eq (not_exists.1 hcount) hclear)

/-- Settles O41, by the kinds of step and `Effect.results_eq`. -/
theorem onlyFiveCommandsWriteTheResults : Obligations.OnlyFiveCommandsWriteTheResults := by
  intro s t h
  cases step_effect h with
  | reset hr => exact .inr (.inr ⟨.inr hr, rfl, rfl, rfl, rfl⟩)
  | host | idle | failed => exact .inl ⟨rfl, rfl, rfl, rfl⟩
  | @completed i u hi hu =>
    cases i with
    | clear => cases hu; exact .inr (.inr ⟨.inl hi, rfl, rfl, rfl, rfl⟩)
    | build => exact .inr (.inl ⟨rfl, .inl hi⟩)
    | depth => exact .inr (.inl ⟨rfl, .inr (.inl hi)⟩)
    | resolve sym => exact .inr (.inl ⟨rfl, .inr (.inr ⟨sym, 0, .inl hi⟩)⟩)
    | getfreq sym => exact .inr (.inl ⟨rfl, .inr (.inr ⟨sym, 0, .inr (.inl hi)⟩)⟩)
    | noderd idx => exact .inr (.inl ⟨rfl, .inr (.inr ⟨0, idx, .inr (.inr hi)⟩)⟩)
    | _ => exact .inl (hu.results_eq rfl nofun)

/-- Settles O38, by the kinds of step, `Effect.fifo_cases` and `hostStep_fifo`. -/
theorem fifoIsAQueue : Obligations.FifoIsAQueue := by
  intro s t h
  cases step_effect h with
  | reset hr => exact .inr (.inr (.inr ⟨rfl, .inr hr⟩))
  | @host a ha =>
    rw [step_host ha] at h
    exact (hostStep_fifo h).imp_right fun hpop => .inr (.inl ⟨a, ha, hpop⟩)
  | idle | failed => exact .inl rfl
  | @completed i u hi hu =>
    obtain hsame | ⟨b, hpush, hfifo⟩ | ⟨rfl, hfifo⟩ := hu.fifo_cases
    · exact .inl hsame
    · refine .inr (.inl ⟨b, ?_, hfifo⟩)
      obtain rfl | ⟨v, sym, rfl | rfl⟩ := hpush
      · exact .inl hi
      · exact .inr ⟨v, sym, .inl hi⟩
      · exact .inr ⟨v, sym, .inr hi⟩
    · exact .inr (.inr (.inr ⟨hfifo, .inl hi⟩))

/-! ### The invariant of R48 -/

/-- A reset, whatever turns are to come, leaves a state of R48. -/
theorem resetWith_inv {c : Config} (hc : c.Legal) (l : List Turn) :
    ({ State.resetWith c with turns := l } : State).Inv where
  legal := hc
  table := FreqTable.wf_nil
  alphabet := nofun
  nsym_eq := rfl
  total_eq := rfl
  total_le := Nat.zero_le _
  store := nofun
  packer := BitVec.zero_and
  fifo_le := Nat.zero_le _

theorem reference_legal : Config.reference.Legal := by decide

/-- Settles O55: R50's values are those of an empty table, packer and FIFO (`resetWith_inv`). -/
theorem resetMeetsTheInvariant : Obligations.ResetMeetsTheInvariant :=
  ⟨fun _ hc => resetWith_inv hc [], resetWith_inv reference_legal []⟩

section Inv
variable {s t u : State} {i : Instr}

/-- R48 looks at the configuration, the table, the tree, the packer and the FIFO only. -/
theorem State.Inv.of_eq (h : s.Inv)
    (heq : (t.cfg, t.phase, t.cnt, t.nsym, t.total) = (s.cfg, s.phase, s.cnt, s.nsym, s.total))
    (hpacker : t.PackerInv) (hfifo : t.outlvl ≤ s.cfg.ofifoDepth) : t.Inv := by
  simp only [Prod.mk.injEq] at heq
  obtain ⟨hcfg, hphase, hcnt, hnsym, htotal⟩ := heq
  exact {
    legal := by rw [hcfg]; exact h.legal
    table := by rw [hcnt]; exact h.table
    alphabet := by rw [hcnt, hcfg]; exact h.alphabet
    nsym_eq := by rw [hnsym, hcnt]; exact h.nsym_eq
    total_eq := by rw [htotal, hcnt]; exact h.total_eq
    total_le := by rw [htotal, hcfg]; exact h.total_le
    store := by rw [hphase, hcnt]; exact h.store
    packer := hpacker
    fifo_le := by rw [hcfg]; exact hfifo }

theorem emptyPacker_packerInv (s : State) : s.emptyPacker.PackerInv := BitVec.zero_and

/-- A bit fed in is no longer among the free ones (R151). -/
theorem put_packerInv (h : s.PackerInv) (v : Bool) : (s.put v).PackerInv := by
  by_cases hp : s.pkbits = 7
  · rw [put_fills hp]
    exact emptyPacker_packerInv _
  · have hlt : s.pkbits.toNat < 7 := by
      rw [pkbits_eq_seven_iff] at hp
      have := s.pkbits.isLt
      omega
    rw [put_waits hp, packerInv_iff]
    rw [packerInv_iff] at h
    intro j hj
    have hnext : (s.pkbits + 1).toNat = s.pkbits.toNat + 1 := toNat_succ_pkbits hlt
    simp only [hnext] at hj
    rw [State.pkbufWith, getLsbD_byteSetBit _ _ _ (by omega), if_neg (by omega)]
    exact h j (by omega)

theorem putAll_packerInv (h : s.PackerInv) (bits : List Bool) : (s.putAll bits).PackerInv := by
  induction bits generalizing s with
  | nil => exact h
  | cons v bits ih => exact ih (put_packerInv h v)

/-- A push past the OFULL check keeps the FIFO within its depth. -/
theorem outlvl_pushOut_le (h : s.outlvl ≤ s.cfg.ofifoDepth) (hroom : ¬ s.FifoFull) (b : Byte) :
    (s.pushOut b).outlvl ≤ s.cfg.ofifoDepth := by
  have hlt : s.outlvl < s.cfg.ofifoDepth := lt_of_le_of_ne h hroom
  rw [State.outlvl, pushOut_fifo, List.length_append]
  exact hlt

/-- COUNT adds one to NSYM, to TOTAL and to what R48 says they are (R110). -/
theorem countSymbol_inv (h : s.Inv) (hp : s.phase = .counting) (ht : s.total ≠ s.cfg.fmax)
    {k : Nat} (hk : k < s.cfg.nsymMax) : (s.countSymbol k).Inv where
  legal := h.legal
  table := FreqTable.wf_write h.table ..
  alphabet := by
    intro p hmem
    obtain ⟨rfl, -⟩ | hmem := FreqTable.mem_write hmem
    · exact hk
    · exact h.alphabet p hmem
  nsym_eq := by
    rw [countSymbol_nsym, countSymbol_cnt, FreqTable.length_write_succ h.table, h.nsym_eq]
  total_eq := by
    rw [countSymbol_total, countSymbol_cnt, FreqTable.sum_write_succ h.table, h.total_eq]
  total_le := Nat.succ_le_of_lt (lt_of_le_of_ne h.total_le ht)
  store := fun t hbuilt => nomatch hp.symm.trans hbuilt
  packer := h.packer
  fifo_le := h.fifo_le

theorem Effect.inv (h : Effect s i u) (hs : s.Inv) : u.Inv := by
  cases h with
  | nop => exact hs
  | clear => exact (resetWith_inv hs.legal []).of_eq rfl (emptyPacker_packerInv s) (Nat.zero_le _)
  | count hf hp ht => exact countSymbol_inv hs hp ht hf
  | @build t hp hn ht =>
    have hne : s.cnt ≠ [] := fun hnil => hn (by rw [hs.nsym_eq, hnil]; rfl)
    obtain ⟨st, hst, hinv, -⟩ := buildStore_inv hs.table hs.alphabet hne
    obtain rfl : st = t := Option.some.inj (hst.symm.trans ht)
    exact ⟨hs.legal, hs.table, hs.alphabet, hs.nsym_eq, hs.total_eq, hs.total_le,
      fun _ hbuilt => Phase.built.inj hbuilt ▸ hinv, hs.packer, hs.fifo_le⟩
  | resolve | getfreq | depth | noderd => exact hs.of_eq rfl hs.packer hs.fifo_le
  | @encode sym t b hf hp ho hr hroom =>
    refine hs.of_eq (by simp) (putAll_packerInv hs.packer _) ?_
    obtain ⟨b', buf, hput⟩ := putAll_byteBits s (bitByte b)
    rw [hput]
    exact outlvl_pushOut_le hs.fifo_le hroom b'
  | @putbit v ho hroom =>
    refine hs.of_eq (by simp) (put_packerInv hs.packer v) ?_
    by_cases hp : s.pkbits = 7
    · rw [put_fills hp]
      exact outlvl_pushOut_le hs.fifo_le (fun hfull => hroom ⟨hp, hfull⟩) _
    · rw [put_waits hp]
      exact hs.fifo_le
  | closeStream ho hroom =>
    by_cases hp : s.pkbits = 0
    · rw [flush_aligned hp]
      exact hs.of_eq rfl hs.packer hs.fifo_le
    · rw [flush_pending hp]
      exact hs.of_eq rfl (emptyPacker_packerInv s)
        (outlvl_pushOut_le hs.fifo_le (fun hfull => hroom ⟨hp, hfull⟩) _)
  | openStream => exact hs.of_eq rfl (emptyPacker_packerInv s) hs.fifo_le

theorem State.Inv.bookkeep (h : s.Inv) (e : ErrCode) : (s.bookkeep e).Inv :=
  h.of_eq rfl h.packer h.fifo_le

theorem State.Inv.turnTaken (h : s.Inv) : s.turnTaken.Inv := h.of_eq rfl h.packer h.fifo_le

theorem State.Inv.exec (h : s.Inv) (hexec : exec i s = .next t) : t.Inv := by
  rcases exec_next hexec with ⟨e, -, rfl⟩ | ⟨u, hu, rfl⟩
  · exact h.bookkeep e
  · exact (hu.inv h).bookkeep .noError

theorem State.Inv.hostStep {a : HostAccess} (h : s.Inv) (hstep : hostStep a s = .next t) :
    t.Inv := by
  have hfifo : t.outlvl ≤ s.cfg.ofifoDepth := by
    have hle := h.fifo_le
    simp only [State.outlvl] at hle ⊢
    obtain heq | ⟨-, -, heq⟩ := hostStep_fifo hstep
    · rwa [heq]
    · rw [heq, List.length_tail]; omega
  rw [hostStep_frame hstep]
  exact h.of_eq rfl h.packer hfifo

end Inv

/-- Settles O56, by the kinds of step; a command's effect is `Effect.inv`. -/
theorem everyStepKeepsTheInvariant : Obligations.EveryStepKeepsTheInvariant := by
  intro s t hs h
  cases step_effect h with
  | reset => exact resetWith_inv hs.legal _
  | host ha =>
    rw [step_host ha] at h
    exact hs.turnTaken.hostStep h
  | idle => exact hs.turnTaken
  | failed => exact hs.turnTaken.bookkeep _
  | completed hi hu => exact (hu.inv hs.turnTaken).bookkeep _

end Sys2Proof.Machine
end

section
/-! PROOFS. The commands of the counter, the tree builder, the resolver and the encoder
(40_frequency.md, 41_tree_builder.md, 42_code_resolver.md, 44_encoder.md) in a state of R48. -/

namespace Sys2Proof.Machine

/-! ### Widths in a state of R48 (R9, R113) -/

theorem fmax_lt {c : Config} (h : c.Legal) : c.fmax < 2 ^ 32 := by
  obtain ⟨-, ⟨-, hfreqw⟩, -⟩ := h
  have hle : 2 ^ c.freqw ≤ 2 ^ 32 := Nat.pow_le_pow_right (by decide) hfreqw
  rw [Config.fmax]
  omega

/-- A register shows a number that fits it whole (log entry 8). -/
theorem toNat_ofNat_of_lt {w n : Nat} (h : n < 2 ^ w) : (BitVec.ofNat w n).toNat = n :=
  (BitVec.toNat_ofNat ..).trans (Nat.mod_eq_of_lt h)

section Widths
variable {s : State}

theorem State.Inv.sum_le_fmax (h : s.Inv) : s.cnt.sum ≤ s.cfg.fmax := h.total_eq ▸ h.total_le

theorem State.Inv.read_le_fmax (h : s.Inv) (x : Nat) : s.cnt.read x ≤ s.cfg.fmax :=
  (FreqTable.read_le_sum s.cnt x).trans h.sum_le_fmax

theorem State.Inv.node_le_fmax (h : s.Inv) {t : NodeStore} (hp : s.phase = .built t) {e : Node}
    (he : e ∈ t.nodes) : e.f ≤ s.cfg.fmax := by
  have ht := h.store t hp
  obtain ⟨i, hi, rfl⟩ := List.getElem_of_mem he
  have hfreq : freqAt t.nodes i = t.nodes[i].f := by simp [freqAt, hi]
  rw [← hfreq]
  exact (freqAt_le_sum ht (by rwa [ht.nnodes_eq])).trans h.sum_le_fmax

end Widths

/-- Settles O21: each is at most the sum of the counts, which is TOTAL. -/
theorem frequenciesFitTheirWidth : Obligations.FrequenciesFitTheirWidth :=
  fun _ hs => ⟨hs.read_le_fmax, fun _ hp _ he => hs.node_le_fmax hp he⟩

/-! ### COUNT and GETFREQ (R110, R111) -/

section Counter
variable {s t : State} {sym : Symbol}

theorem exec_count (hf : s.cfg.SymFits sym) (hp : s.phase = .counting)
    (ht : s.total ≠ s.cfg.fmax) :
    exec (.count sym) s = .next ((s.countSymbol sym.toNat).bookkeep .noError) := by
  rw [exec, execCount, require_pos hf, require_pos hp, require_pos ht]
  rfl

theorem exec_getfreq (hf : s.cfg.SymFits sym) :
    exec (.getfreq sym) s = .next { s.succeeded with
      res0 := BitVec.ofNat 32 (s.cnt.read sym.toNat)
      res1 := 0
      res2 := 0
      res3 := 0 } := by
  rw [exec, execGetfreq, require_pos hf]
  rfl

/-- COUNT reads back one more for its symbol and the same for every other. -/
theorem read_countSymbol (s : State) (k x : Nat) :
    (s.countSymbol k).cnt.read x = s.cnt.read x + if x = k then 1 else 0 := by
  rw [countSymbol_cnt]
  split
  · next hx => rw [hx, FreqTable.read_write_same _ _ (Nat.succ_pos _)]
  · next hx => rw [FreqTable.read_write_other _ hx (Nat.succ_pos _), Nat.add_zero]

/-- The table of `t` is the one of the text: its counts, its different symbols, its length. -/
structure Tabulates (text : List Symbol) (t : State) : Prop where
  phase : t.phase = .counting
  table : t.cnt.Wf
  read_eq : ∀ c : Symbol, t.cnt.read c.toNat = text.count c
  nsym_eq : t.nsym = text.toFinset.card
  total_eq : t.total = text.length

/-- One more character of the text counted. -/
theorem Tabulates.count {text : List Symbol} (h : Tabulates text t) (sym : Symbol) :
    Tabulates (text ++ [sym]) ((t.countSymbol sym.toNat).bookkeep .noError) where
  phase := h.phase
  table := FreqTable.wf_write h.table ..
  read_eq c := by
    rw [bookkeep_cnt, read_countSymbol, h.read_eq, List.count_append, List.count_singleton]
    simp [BitVec.toNat_inj, eq_comm (a := c)]
  nsym_eq := by
    have hset : (text ++ [sym]).toFinset = insert sym text.toFinset := by
      ext c; simp
    rw [bookkeep_nsym, countSymbol_nsym, h.read_eq, h.nsym_eq, hset]
    simp only [List.count_eq_zero]
    split
    · next hnew => rw [Finset.card_insert_of_notMem (by simpa using hnew)]
    · next hold => rw [Finset.insert_eq_of_mem (by simpa using hold)]
  total_eq := by
    rw [bookkeep_total, countSymbol_total, h.total_eq, List.length_append]
    rfl

theorem execList_append {xs : List Instr} (h : execList xs s = .next t) (ys : List Instr) :
    execList (xs ++ ys) s = execList ys t := by
  induction xs generalizing s with
  | nil => cases h; rfl
  | cons i xs ih =>
    cases hi : exec i s with
    | next u =>
      rw [execList_cons hi] at h
      rw [List.cons_append, execList_cons hi, ih h]
    | fault f => rw [execList, hi] at h; cases h
    | refused r => rw [execList, hi] at h; cases h

/-- Counting a text tabulates it, character by character from its start. -/
theorem execList_count (hs : Tabulates [] s) (text : List Symbol)
    (hfits : ∀ c ∈ text, s.cfg.SymFits c) (hlen : text.length ≤ s.cfg.fmax) :
    ∃ t, execList (text.map Instr.count) s = .next t ∧ t.cfg = s.cfg ∧ Tabulates text t := by
  induction text using List.reverseRecOn with
  | nil => exact ⟨s, rfl, rfl, hs⟩
  | append_singleton text sym ih =>
    rw [List.length_append, List.length_singleton] at hlen
    obtain ⟨t, hrun, hcfg, ht⟩ :=
      ih (fun c hc => hfits c (List.mem_append_left _ hc)) (by omega)
    have hsym : t.cfg.SymFits sym := by
      rw [hcfg]; exact hfits sym (List.mem_append_right _ List.mem_cons_self)
    have hroom : t.total ≠ t.cfg.fmax := by rw [ht.total_eq, hcfg]; omega
    refine ⟨(t.countSymbol sym.toNat).bookkeep .noError, ?_, hcfg, ht.count sym⟩
    rw [List.map_append, execList_append hrun, List.map_singleton,
      execList_cons (exec_count hsym ht.phase hroom)]
    rfl

end Counter

/-- Settles O18, by `exec_count` and `read_countSymbol`. -/
theorem countAddsOneToItsSymbol : Obligations.CountAddsOneToItsSymbol := by
  intro s sym hf hp ht
  refine ⟨_, exec_count hf hp ht, ?_, fun x hx => ?_, rfl⟩
  · rw [bookkeep_cnt, read_countSymbol, if_pos rfl]
  · rw [bookkeep_cnt, read_countSymbol, if_neg hx, Nat.add_zero]

/-- Settles O19: the empty table tabulates the empty text, and `execList_count` goes on from it. -/
theorem countingATextTabulatesIt : Obligations.CountingATextTabulatesIt := by
  intro s text hp hcnt hnsym htotal hfits hlen
  have hs : Tabulates [] s :=
    ⟨hp, by rw [hcnt]; exact FreqTable.wf_nil, fun c => by rw [hcnt]; rfl, hnsym, htotal⟩
  obtain ⟨t, hrun, -, ht⟩ := execList_count hs text hfits hlen
  exact ⟨t, hrun, ht.table, ht.read_eq, ht.nsym_eq.trans (List.card_toFinset text), ht.total_eq,
    ht.phase⟩

/-- Settles O20: RES0 is the low 32 bits of the count, and a count in a state of R48 has no more. -/
theorem getfreqReadsTheCount : Obligations.GetfreqReadsTheCount := by
  intro s sym hf
  refine ⟨_, exec_getfreq hf, BitVec.toNat_ofNat .., fun hs => ?_, rfl⟩
  have hlt : s.cnt.read sym.toNat < 2 ^ 32 :=
    (hs.read_le_fmax sym.toNat).trans_lt (fmax_lt hs.legal)
  exact toNat_ofNat_of_lt hlt

/-! ### BUILD (R120 to R126, R129) -/

/-- Settles O23: the store is `buildStore`'s, by `buildStore_inv` and `buildStore_mergedFrom`. -/
theorem buildMakesTheTreeOfTheTable : Obligations.BuildMakesTheTreeOfTheTable := by
  intro s hs hp hn
  have hne : s.cnt ≠ [] := fun hnil => hn (by rw [hs.nsym_eq, hnil]; rfl)
  obtain ⟨st, hst, hinv, hmarked⟩ := buildStore_inv hs.table hs.alphabet hne
  have hmerged := buildStore_mergedFrom hs.table hs.alphabet hne hst
  have hleaves : (makeLeaves s.cfg s.cnt).length = s.nsym := by
    rw [makeLeaves_eq_map hs.table hs.alphabet, List.length_map, hs.nsym_eq]
  have hnnodes : st.nnodes = 2 * s.nsym - 1 := by rw [hs.nsym_eq]; exact hinv.nnodes_count
  have hroot : st.root = 2 * s.nsym - 2 := by rw [hinv.root_eq, hnnodes, Nat.sub_sub]
  rw [← hs.nsym_eq] at hmarked hmerged
  refine ⟨st, _, exec_build_of_store hp hn hst, hinv, hmarked, hmerged, ?_⟩
  rw [hroot, hleaves, hnnodes]

/-- The leaves are made from the counts of the alphabet alone (R121). -/
theorem makeLeaves_congr {c : Config} {t u : FreqTable}
    (h : ∀ x < c.nsymMax, t.read x = u.read x) : makeLeaves c t = makeLeaves c u := by
  unfold makeLeaves
  apply List.filterMap_congr
  intro x hx
  rw [h x (List.mem_range.1 hx)]

/-- BUILD looks at the leaves and nothing else. -/
theorem buildStore_congr {c : Config} {t u : FreqTable}
    (h : ∀ x < c.nsymMax, t.read x = u.read x) : buildStore c t = buildStore c u := by
  unfold buildStore
  rw [makeLeaves_congr h]

/-- A command that completes without error has had its effect. -/
theorem exec_effect {i : Instr} {s t : State} (h : exec i s = .next t) (he : t.err = .noError) :
    ∃ u, Effect s i u ∧ t = u.bookkeep .noError := by
  rcases exec_next h with ⟨e, hne, rfl⟩ | hu
  · exact absurd he hne
  · exact hu

/-- Settles O26: the store and the results are functions of the leaves (`makeLeaves_congr`). -/
theorem buildDependsOnlyOnTheCounts : Obligations.BuildDependsOnlyOnTheCounts := by
  intro s u s' u' hcfg hcnt hs hu hes heu
  obtain ⟨_, hsb, rfl⟩ := exec_effect hs hes
  obtain ⟨_, hub, rfl⟩ := exec_effect hu heu
  cases hsb with
  | @build st _ _ hst =>
    cases hub with
    | @build st' _ _ hst' =>
      obtain rfl : st = st' := by
        rw [← hcfg, ← buildStore_congr hcnt] at hst'
        exact Option.some.inj (hst.symm.trans hst')
      refine ⟨rfl, rfl, ?_, rfl, rfl⟩
      rw [bookkeep_res1, bookkeep_res1, setRes_res1, setRes_res1, ← hcfg, makeLeaves_congr hcnt]

/-! ### DEPTH and NODERD (R130, R131) -/

/-- Settles O28: the walk has a value (`treeDepth_ok`). -/
theorem depthMeasuresTheTree : Obligations.DepthMeasuresTheTree := by
  intro s st hs hp
  obtain ⟨d, hd, hdepth, hpos, hle⟩ := treeDepth_ok (hs.store st hp)
  refine ⟨d, hdepth, hpos, hs.nsym_eq ▸ hle, ?_⟩
  rw [exec, execDepth, withStore_built hp, hd, withValue_ok]
  rfl

/-- RES1 of R131 as a number. -/
theorem toNat_nodeWord (e : Node) : e.word.toNat =
    (if e.bit then 2 ^ 17 else 0) + (if e.kind = .internal then 2 ^ 16 else 0) + e.sym.toNat := by
  simp only [Node.word, toNat_append_eq, BitVec.toNat_ofBool]
  cases e.bit <;> cases e.kind <;> rfl

/-- No entry has a child above it. -/
theorem NodeStore.Inv.children_le {cnt : FreqTable} {t : NodeStore} (h : t.Inv cnt) {i : Nat}
    {e : Node} (hi : i < t.nnodes) (he : t.nodes[i]? = some e) : e.left ≤ i ∧ e.right ≤ i := by
  obtain hlt | hge := Nat.lt_or_ge i cnt.length
  · obtain ⟨e', he', -, -, -, hl, hr⟩ := h.leaf_at hlt
    obtain rfl : e = e' := Option.some.inj (he.symm.trans he')
    omega
  · obtain ⟨-, -, hl, hr, -⟩ := h.internals i hi hge e he
    exact ⟨hl.le, hr.le⟩

/-- Settles O29: a frequency is at most FMAX and a child is below 2^17, so each field fits its
register. -/
theorem noderdReadsTheEntry : Obligations.NoderdReadsTheEntry := by
  intro s st idx hs hp hi
  have hst := hs.store st hp
  obtain ⟨e, he, -⟩ := hst.cases hi
  have hnode : st.nodes[idx.toNat]? = some e := by rw [← hst.entry_eq, he]
  have hf : e.f < 2 ^ 32 :=
    (hs.node_le_fmax hp (List.mem_of_getElem? hnode)).trans_lt (fmax_lt hs.legal)
  obtain ⟨hleft, hright⟩ := hst.children_le hi hnode
  have hidx := idx.isLt
  have hexec : exec (.noderd idx) s = .next { s.succeeded with
      res0 := BitVec.ofNat 32 e.f
      res1 := e.word
      res2 := BitVec.ofNat 32 e.left
      res3 := BitVec.ofNat 32 e.right } := by
    rw [exec, execNoderd, withStore_built hp, require_pos hi, readEntry, he]
    rfl
  exact ⟨e, _, hnode, hexec, toNat_ofNat_of_lt hf, toNat_nodeWord e,
    toNat_ofNat_of_lt (by omega), toNat_ofNat_of_lt (by omega), rfl⟩

/-! ### RESOLVE and ENCODE (R140, R165 to R167) -/

/-- Settles O31: the search is the direct rule (`State.Inv.lookup_ok`). -/
theorem resolveReturnsTheLeafBit : Obligations.ResolveReturnsTheLeafBit := by
  intro s st sym hs hp hf
  rw [exec_resolve_of_lookup hf hp (hs.lookup_ok hp sym), ← hs.nsym_eq]
  rcases st.directCode s.nsym sym with - | - | - <;> rfl

/-- Settles O39: the search finds the leaf, and `putAll_bitByte` is the closed form of its bits. -/
theorem encodeEmitsOneShiftedByte : Obligations.EncodeEmitsOneShiftedByte := by
  intro s st sym r hs hp hf ho hr hroom
  have hlookup : lookup st sym = .ok (some r) := by
    rw [hs.lookup_ok hp sym, ← hs.nsym_eq, hr]
  rw [exec, execEncode, require_pos hf, withStore_built hp, require_pos ho, hlookup, withValue_ok]
  simp only
  rw [require_pos (show ¬ s.FifoFull from hroom), putAll_bitByte hs.packer]
  rfl

/-- ENCODE with no bit pending pushes the bit of the leaf as a byte and keeps the packer aligned. -/
theorem exec_encode_aligned {s : State} {st : NodeStore} {sym : Symbol} (hs : s.Inv)
    (hp : s.phase = .built st) (hf : s.cfg.SymFits sym) (ho : s.pkopen = true)
    (hbits : s.pkbits = 0) (hleaf : (st.directCode s.nsym sym).isSome)
    (hroom : s.fifo.length ≠ s.cfg.ofifoDepth) :
    exec (.encode sym) s = .next { s.succeeded with
      pkbuf := 0
      fifo := s.fifo ++ [if st.directCode s.nsym sym = some true then 0x01#8 else 0x00#8]
      bytesout := s.bytesout + 1 } := by
  obtain ⟨r, hr⟩ := Option.isSome_iff_exists.1 hleaf
  have hbuf : s.pkbuf = 0 := by
    have hpacker := (packerInv_iff s).1 hs.packer
    rw [hbits] at hpacker
    exact BitVec.eq_of_getLsbD_eq fun j hj => by rw [hpacker j hj]; simp
  rw [encodeEmitsOneShiftedByte s st sym r hs hp hf ho hr hroom, hr, hbuf, hbits]
  cases r <;> rfl

/-- Settles O40, character by character, each in the state of R48 the one before it left. -/
theorem encodingATextEmitsItsBits : Obligations.EncodingATextEmitsItsBits := by
  intro s st text hs hp ho hbits hleaves hroom
  induction text generalizing s with
  | nil => exact ⟨s, rfl, by simp, hbits, rfl, by simp⟩
  | cons sym text ih =>
    obtain ⟨⟨hf, hleaf⟩, hleaves⟩ := List.forall_mem_cons.1 hleaves
    rw [List.length_cons] at hroom
    have hexec := exec_encode_aligned hs hp hf ho hbits hleaf (by omega)
    obtain ⟨t, hrun, hfifo, hbits', hphase, hout⟩ :=
      ih _ (hs.exec hexec) hp ho hbits hleaves (by simp [State.succeeded]; omega)
    refine ⟨t, (execList_cons hexec _).trans hrun, ?_, hbits', hphase, ?_⟩
    · rw [hfifo, List.map_cons, List.append_assoc]
      rfl
    · rw [hout, List.length_cons, Nat.add_comm, BitVec.ofNat_add, ← BitVec.add_assoc]
      rfl

end Sys2Proof.Machine
end

section
/-! PROOFS. The register window (10_state.md section 2, 20_memory.md): what each register shows,
where it is, and what a HOST access of it does. -/

namespace Sys2Proof.Machine

/-! ### What the registers show -/

/-- R25 as a number. -/
theorem toNat_status (s : State) : s.status.toNat =
    (BitVec.ofBool s.busy).toNat + 2 * s.phase.bits.toNat + 8 * (BitVec.ofBool s.pkopen).toNat +
      16 * s.err.code.toNat + 256 * s.pkbits.toNat + 65536 * s.donecnt.toNat := by
  simp only [State.status, toNat_append_eq, BitVec.toNat_ofNat]
  omega

/-- Settles O46, field by field of `toNat_status`. -/
theorem statusShowsItsFields : Obligations.StatusShowsItsFields := by
  intro s
  have hbusy : (BitVec.ofBool s.busy).toNat = if s.pend.isSome then 1 else 0 := by
    rw [State.busy]; cases s.pend <;> rfl
  have hphase : 2 * s.phase.bits.toNat = if s.phase = .counting then 0 else 2 := by
    cases s.phase <;> rfl
  have hpkopen : 8 * (BitVec.ofBool s.pkopen).toNat = if s.pkopen then 8 else 0 := by
    cases s.pkopen <;> rfl
  rw [State.readReg, toNat_status, hbusy, hphase, hpkopen]
  cases s.err <;> rfl

/-- R23 as a number. -/
theorem toNat_configWord {c : Config} (h : c.Legal) :
    (Config.word c).toNat = c.symw + 256 * c.freqw + 65536 * c.ofifoDepth := by
  obtain ⟨hsymw, hfreqw, hdepth, -⟩ := h
  rw [Config.word, toNat_append_eq, toNat_append_eq, toNat_ofNat_of_lt (by omega),
    toNat_ofNat_of_lt (by omega), toNat_ofNat_of_lt (by omega)]
  omega

/-- R35 as a number. -/
theorem toNat_pkWord (s : State) : s.pkWord.toNat = s.pkbuf.toNat + 256 * s.pkbits.toNat := by
  simp only [State.pkWord, toNat_append_eq, BitVec.toNat_ofNat]
  omega

/-- A table over the alphabet has at most one entry per symbol. -/
theorem State.Inv.nsym_le {s : State} (h : s.Inv) : s.nsym ≤ s.cfg.nsymMax := by
  have hkeys := keys_eq_filter_range h.table h.alphabet
  calc s.nsym = (s.cnt.map Prod.fst).length := by rw [List.length_map, h.nsym_eq]
    _ ≤ (List.range s.cfg.nsymMax).length := by rw [← hkeys]; exact List.length_filter_le ..
    _ = s.cfg.nsymMax := List.length_range

/-- Settles O47: under R48 each number fits the bits that show it. -/
theorem registersShowTheirContents : Obligations.RegistersShowTheirContents := by
  intro s hs
  obtain ⟨-, -, ⟨-, hdepth⟩, -⟩ := hs.legal
  have hlevel : s.outlvl < 2 ^ 32 := hs.fifo_le.trans_lt (by omega)
  have halphabet : s.cfg.nsymMax ≤ 2 ^ 16 :=
    Nat.pow_le_pow_right (by decide) hs.legal.symw_le
  have hnsym : s.nsym < 2 ^ 32 := hs.nsym_le.trans_lt (by omega)
  have htotal : s.total < 2 ^ 32 := hs.total_le.trans_lt (fmax_lt hs.legal)
  exact ⟨rfl, rfl, rfl, rfl, rfl, rfl, BitVec.toNat_setWidth_of_le (by decide),
    toNat_configWord hs.legal, toNat_ofNat_of_lt hlevel, toNat_pkWord s, toNat_ofNat_of_lt hnsym,
    hs.nsym_le, toNat_ofNat_of_lt htotal, rfl⟩

/-- {x, 1} is {x, 0} with bit 0 set. -/
theorem append_one_eq {n : Nat} (x : BitVec n) : x ++ 1#1 = (x ++ 0#1) ||| 1#(n + 1) := by
  apply BitVec.eq_of_getLsbD_eq
  intro j hj
  cases j with
  | zero => simp [BitVec.getLsbD_append]
  | succ j => simp [BitVec.getLsbD_append, BitVec.getLsbD_one]

/-- BUSY is bit 0 of STATUS, and the only view of PEND (R25, R26). -/
theorem status_of_pending {s : State} (h : s.pend = none) (w : Word) :
    ({ s with pend := some w } : State).status = s.status ||| 1#32 := by
  simp only [State.status, State.busy, h]
  exact append_one_eq _

/-- Settles O50: no register but STATUS shows PEND. -/
theorem pendingReadsShowTheOldState : Obligations.PendingReadsShowTheOldState := by
  intro s w hp
  refine ⟨fun r hr => ?_, status_of_pending hp w⟩
  cases r with
  | status => exact absurd rfl hr
  | _ => rfl

/-! ### Accesses of the window -/

section Access
variable (s : State)

theorem afterRead_of_ne {r : Reg} (h : r ≠ .out) : s.afterRead r = s := by
  cases r with
  | out => exact absurd rfl h
  | _ => rfl

theorem afterWrite_of_ne {r : Reg} (hcmd : r ≠ .cmd) (hsticky : r ≠ .sticky) (v : Word) :
    s.afterWrite v r = s := by
  cases r with
  | cmd => exact absurd rfl hcmd
  | sticky => exact absurd rfl hsticky
  | _ => rfl

/-- No register shows the turns to come. -/
theorem readReg_turnTaken (r : Reg) : s.turnTaken.readReg r = s.readReg r := by
  cases r <;> rfl

end Access

/-- Settles O44: `afterRead` and `afterWrite` are the state itself there. -/
theorem otherAccessesHaveNoSideEffect : Obligations.OtherAccessesHaveNoSideEffect := by
  intro s r hl
  refine ⟨fun hout hn => ?_, fun v hcmd hsticky hn => ?_⟩
  · rw [step_rd hl hn, afterRead_of_ne _ hout, readReg_turnTaken]
  · rw [step_wr hl hn, afterWrite_of_ne _ hcmd hsticky]

/-- Settles O45: the write is `stickyClear`, and STICKY has 10 bits. -/
theorem stickyWritesClearTheirBits : Obligations.StickyWritesClearTheirBits := by
  intro s v hl hn
  refine ⟨_, step_clearSticky hn rfl hl, fun k => ?_, fun k hk => ?_, rfl⟩
  · simp only [State.readReg, stickyClear, BitVec.getLsbD_setWidth, BitVec.getLsbD_and,
      BitVec.getLsbD_not]
    by_cases hk : k < 10
    · simp [hk, Bool.and_assoc]
    · simp [BitVec.getLsbD_of_ge s.sticky k (not_lt.1 hk)]
  · rw [State.readReg, BitVec.getLsbD_setWidth, BitVec.getLsbD_of_ge _ _ hk, Bool.and_false]

/-! ### The register map (R60) -/

theorem offset_lt (r : Reg) : r.offset < 64 := by cases r <;> decide

theorem reaches_of_offset {c : Config} {a : HostAccess} (r : Reg)
    (haddr : a.addr = c.huffBase + r.offset) (hbytes : a.bytes = 4) : a.reaches c = true := by
  have hlt := offset_lt r
  simp only [HostAccess.reaches, Bool.and_eq_true, decide_eq_true_eq]
  omega

/-- An access that touches no byte of the window does not reach HUFFCORE (log entry 6). -/
theorem reaches_eq_false {c : Config} {a : HostAccess}
    (h : ∀ k < a.bytes, ¬ (c.huffBase ≤ a.addr + k ∧ a.addr + k < c.huffBase + 64)) :
    a.reaches c = false := by
  by_contra hreaches
  simp only [HostAccess.reaches, Bool.not_eq_false, Bool.and_eq_true, decide_eq_true_eq] at hreaches
  exact h (c.huffBase - a.addr) (by omega) (by omega)

theorem hostStep_of_not_reaches {s : State} {a : HostAccess} (h : a.reaches s.cfg = false) :
    hostStep a s = .next { s with reply := none } := by
  simp [hostStep, h]

/-- Settles O48: the listed offsets are `Reg.offset`, which the window's laws are about. -/
theorem theWindowHoldsSixteenRegisters : Obligations.TheWindowHoldsSixteenRegisters := by
  intro c hl
  refine ⟨fun p hp => ?registers, fun s a hc hn hout => ?outside⟩
  case registers =>
    have hoffset : p.1 = p.2.offset := by
      revert p; decide
    rw [hoffset]
    exact ⟨ofAddress_offset hl p.2, rfl, fun _ => rfl, fun a => reaches_of_offset p.2⟩
  case outside =>
    subst hc
    rw [step_host hn]
    exact hostStep_of_not_reaches (s := s.turnTaken) (reaches_eq_false hout)

end Sys2Proof.Machine
end

section
/-! PROOFS. Runs of the interleaving (20_memory.md section 5, 60_exceptions.md section 6): every
step but an undefined access answers, a pending command completes, and what the HOST's loops come to. -/

namespace Sys2Proof.Machine

/-! ### A completion in a state of R48 -/

section Completion
variable {s t : State} {w : Word}

theorem completeWord_cfg (h : completeWord w s = .next t) : t.cfg = s.cfg := by
  rcases completeWord_next h with ⟨e, -, rfl⟩ | ⟨i, u, hu, rfl⟩
  · rfl
  · exact hu.cfg_eq

theorem completeWord_turns (h : completeWord w s = .next t) : t.turns = s.turns := by
  rcases completeWord_next h with ⟨e, -, rfl⟩ | ⟨i, u, hu, rfl⟩
  · rfl
  · exact hu.turns_eq

theorem completeWord_pend (h : completeWord w s = .next t) : t.pend = none := by
  obtain ⟨hpend, -⟩ := everyCompletionKeepsTheBooks s t w h
  exact hpend

theorem completeWord_donecnt (h : completeWord w s = .next t) : t.donecnt = s.donecnt + 1 := by
  obtain ⟨-, -, hdonecnt, -⟩ := everyCompletionKeepsTheBooks s t w h
  exact hdonecnt

/-- No completion clears a STICKY bit (R191). -/
theorem completeWord_sticky {k : Nat} (h : completeWord w s = .next t)
    (hk : s.sticky.getLsbD k = true) : t.sticky.getLsbD k = true := by
  rcases completeWord_next h with ⟨e, -, rfl⟩ | ⟨i, u, hu, rfl⟩
  · exact getLsbD_stickyAfter hk e
  · rw [bookkeep_sticky, hu.sticky_eq]; exact hk

theorem State.Inv.completeWord_answers (h : s.Inv) (w : Word) : Answers (completeWord w s) := by
  unfold completeWord
  split
  · exact h.exec_answers _
  · exact answers_raise ..
  · exact answers_raise ..

theorem State.Inv.coreStep_answers (h : s.Inv) : Answers (coreStep s) := by
  unfold coreStep
  split
  · exact ⟨s, rfl⟩
  · exact h.completeWord_answers _

/-- A step that completes a pending word. -/
theorem step_completes (hc : s.CoreNext) (hp : s.pend = some w) :
    step s = completeWord w s.turnTaken := by
  rw [step_core hc, coreStep_pending (s := s.turnTaken) hp]

/-- Under R48 the CORE's turn on a pending word completes it, with the bookkeeping of R186. -/
theorem State.Inv.step_completes (h : s.Inv) (hc : s.CoreNext) (hp : s.pend = some w) :
    ∃ t, step s = .next t ∧ t.pend = none ∧ t.donecnt = s.donecnt + 1 ∧ t.cfg = s.cfg ∧
      t.turns = s.turnsAfter ∧
      ∀ k, s.sticky.getLsbD k = true → t.sticky.getLsbD k = true := by
  obtain ⟨t, ht⟩ := h.turnTaken.completeWord_answers w
  have hcfg := completeWord_cfg ht
  have hcount := completeWord_donecnt ht
  have hturns := completeWord_turns ht
  have hsticky (k : Nat) := completeWord_sticky (k := k) ht
  exact ⟨t, (Machine.step_completes hc hp).trans ht, completeWord_pend ht, hcount, hcfg, hturns,
    hsticky⟩

end Completion

/-! ### Every step answers (R206) -/

/-- The next HOST access is defined where the next turn is admitted; a loop's read always is. -/
theorem hostNext_isDefined {s : State} {a : HostAccess} (hl : s.cfg.Legal)
    (hadm : ∀ x ∈ s.turns.head?, x.Admitted s.cfg) (hn : s.HostNext a) :
    a.reaches s.cfg = true → a.isDefined s.cfg = true := by
  unfold State.HostNext State.act at hn
  split at hn
  · cases hn
  · next b rest hturns =>
    obtain rfl := Act.host.inj hn
    exact hadm (.host b) (by rw [hturns]; rfl)
  · cases hn
  · cases hn
  · split at hn
    · cases hn
    · obtain rfl := Act.host.inj hn
      exact fun _ => rd_isDefined hl _

/-- Settles O57, by whose step it is. -/
theorem invariantStatesNeverStop : Obligations.InvariantStatesNeverStop := by
  intro s hs hadm
  cases hact : s.act with
  | core => rw [step_core hact]; exact hs.turnTaken.coreStep_answers
  | host a =>
    have hdefined := hostNext_isDefined hs.legal hadm hact
    rw [step_host hact]
    exact hostStep_defined (s := s.turnTaken) hdefined
  | reset => exact ⟨_, step_reset hact⟩

/-! ### The turns left -/

section Turns
variable {s t : State}

theorem step_turns (h : step s = .next t) : t.turns = s.turnsAfter := by
  cases step_effect h with
  | reset | host | idle | failed => rfl
  | completed hi hu => exact hu.turns_eq

/-- A step that is not the HOST's leaves no command pending. -/
theorem step_pend_of_not_host (h : step s = .next t) (hn : ∀ a, ¬ s.HostNext a) :
    t.pend = none := by
  cases step_effect h with
  | reset | failed | completed => rfl
  | @host a ha => exact absurd ha (hn a)
  | idle _ hp => exact hp

/-- The turns left are turns there were, or a loop that goes on. -/
theorem turnsAfter_admitted (h : ∀ x ∈ s.turns, x.Admitted s.cfg) :
    ∀ x ∈ s.turnsAfter, x.Admitted s.cfg := by
  intro x hx
  cases hturns : s.turns with
  | nil => rw [turnsAfter_nil hturns] at hx; cases hx
  | cons y rest =>
    rw [hturns] at h
    have hrest : x ∈ rest → x.Admitted s.cfg := fun hmem => h x (List.mem_cons_of_mem y hmem)
    cases y with
    | loop l =>
      rw [turnsAfter_loop hturns] at hx
      split at hx
      · exact h x hx
      · split at hx
        · exact hrest hx
        · obtain rfl | hmem := List.mem_cons.1 hx
          · trivial
          · exact hrest hmem
    | host | core | reset => exact hrest (by rwa [turnsAfter_single hturns rfl] at hx)

/-- The steps the turns can take while a command is pending. -/
def patience (turns : List Turn) : Nat := (turns.map Turn.patience).sum

/-- A HOST step while a command is pending uses up a turn, or one poll of a loop (R70). -/
theorem patience_turnsAfter_lt {a : HostAccess} (hp : s.pend ≠ none) (hn : s.act = .host a) :
    patience s.turnsAfter < patience s.turns := by
  have hbusy : s.busy = true := Option.isSome_iff_ne_none.2 hp
  cases hturns : s.turns with
  | nil => rw [act_nil hturns] at hn; cases hn
  | cons y rest =>
    cases y with
    | core => rw [act_core hturns] at hn; cases hn
    | reset => rw [act_reset hturns] at hn; cases hn
    | host b => rw [turnsAfter_single hturns rfl]; simp [patience, Turn.patience]
    | loop l =>
      have hdue : ¬ s.coreDue l = true := by
        intro hdue
        rw [act_loop hturns, if_pos hdue] at hn
        cases hn
      have hpolls : l.polls ≠ 0 := by simpa [State.coreDue, hbusy] using hdue
      rw [turnsAfter_loop hturns, if_neg hdue]
      split
      · simp [patience, Turn.patience]
      · simp [patience, Turn.patience, HostLoop.polled, hbusy]
        omega

end Turns

/-- One step nearer: no command is pending, or the turns have less patience left. -/
theorem step_progress {s : State} (hs : s.Inv) (hadm : ∀ x ∈ s.turns, x.Admitted s.cfg)
    (hp : s.pend ≠ none) :
    ∃ t, step s = .next t ∧ t.Inv ∧ (∀ x ∈ t.turns, x.Admitted t.cfg) ∧
      (t.pend = none ∨ patience t.turns < patience s.turns) := by
  obtain ⟨t, ht⟩ := invariantStatesNeverStop s hs fun x hx => hadm x (List.mem_of_mem_head? hx)
  refine ⟨t, ht, everyStepKeepsTheInvariant s t hs ht, ?_, ?_⟩
  · rw [step_turns ht, step_cfg ht]
    exact turnsAfter_admitted hadm
  · by_cases hn : ∃ a, s.HostNext a
    · obtain ⟨a, hn⟩ := hn
      exact .inr (by rw [step_turns ht]; exact patience_turnsAfter_lt hp hn)
    · exact .inl (step_pend_of_not_host ht (not_exists.1 hn))

/-- A pending command is gone after at most one step more than the turns have patience for. -/
theorem exists_run_pend_none {s : State} (hs : s.Inv) (hadm : ∀ x ∈ s.turns, x.Admitted s.cfg) :
    ∃ k ≤ patience s.turns + 1, ∃ t, core.run k s = .next t ∧ t.pend = none := by
  induction hn : patience s.turns using Nat.strongRecOn generalizing s with
  | _ n ih =>
    by_cases hp : s.pend = none
    · exact ⟨0, Nat.zero_le _, s, rfl, hp⟩
    obtain ⟨t, ht, hinv, hadm', hdone | hless⟩ := step_progress hs hadm hp
    · exact ⟨1, by omega, t, run_succ ht 0, hdone⟩
    · obtain ⟨k, hk, u, hrun, hu⟩ := ih _ (hn ▸ hless) hinv hadm' rfl
      exact ⟨k + 1, by omega, u, (run_succ ht k).trans hrun, hu⟩

/-- Turns of one step each are run through, one by one, and the last step is the CORE's. -/
theorem run_single_turns (turns : List Turn) {s : State} (hs : s.Inv) (hturns : s.turns = turns)
    (hadm : ∀ x ∈ turns, x.Admitted s.cfg) (hsingle : ∀ x ∈ turns, x.single = true) :
    ∃ t, core.run (turns.length + 1) s = .next t ∧ t.pend = none ∧ t.turns = [] := by
  induction turns generalizing s with
  | nil =>
    obtain ⟨t, ht⟩ := invariantStatesNeverStop s hs (by simp [hturns])
    have hcore : ∀ a, ¬ s.HostNext a := fun a hn => nomatch (act_nil hturns).symm.trans hn
    exact ⟨t, run_succ ht 0, step_pend_of_not_host ht hcore,
      (step_turns ht).trans (turnsAfter_nil hturns)⟩
  | cons x rest ih =>
    obtain ⟨hx, hadm⟩ := List.forall_mem_cons.1 hadm
    obtain ⟨hxsingle, hsingle⟩ := List.forall_mem_cons.1 hsingle
    obtain ⟨t, ht⟩ := invariantStatesNeverStop s hs (by simpa [hturns] using hx)
    have hrest : t.turns = rest := by rw [step_turns ht, turnsAfter_single hturns hxsingle]
    rw [List.length_cons, run_succ ht]
    exact ih (everyStepKeepsTheInvariant s t hs ht) hrest (by rwa [step_cfg ht]) hsingle

/-- Settles O58: every step uses up patience (`step_progress`) or, of single turns, a turn. -/
theorem everyPendingCommandCompletes : Obligations.EveryPendingCommandCompletes := by
  intro s hs hadm
  exact ⟨exists_run_pend_none hs hadm, run_single_turns s.turns hs rfl hadm⟩

/-! ### The order of a completion and a CMD write (R220) -/

/-- Settles O53: the completion of either order has an end under R48; a dropped write sets
STICKY[0], which the completion after it keeps. -/
theorem issueHazardAdmitsBothOrders : Obligations.IssueHazardAdmitsBothOrders := by
  intro s w v hs hp
  constructor
  case left =>
    obtain ⟨t, hcore, hend, hcount, hcfg, hturns, -⟩ := State.Inv.step_completes
      (s := { s with turns := [.core, .host (.wr s.cfg .cmd v)] })
      (hs.of_eq rfl hs.packer hs.fifo_le) rfl hp
    have hn : t.HostNext (.wr t.cfg .cmd v) := by
      rw [hcfg]
      exact act_host hturns
    obtain ⟨haccept, -⟩ := cmdWritesAreAcceptedOrDropped t (hcfg ▸ hs.legal)
    exact ⟨_, run_two hcore (haccept v hn hend), rfl, hcount⟩
  case right =>
    obtain ⟨-, hdrop, -⟩ := cmdWritesAreAcceptedOrDropped
      { s with turns := [.host (.wr s.cfg .cmd v), .core] } hs.legal
    obtain ⟨t, hcore, hend, hcount, -, -, hsticky⟩ := State.Inv.step_completes
      (s := { s with turns := [.core], sticky := s.sticky ||| 1#10, reply := some .done })
      (hs.of_eq rfl hs.packer hs.fifo_le) rfl hp
    exact ⟨t, run_two (hdrop v w rfl hp) hcore, hend, hcount, hsticky 0 (by simp)⟩

/-! ### The HOST's loops (R99, R206) -/

section Loops
variable {s t : State} {l : HostLoop} {rest : List Turn} {w : Word}

theorem answer_rd (hl : s.cfg.Legal) (r : Reg) : s.answer (.rd s.cfg r) = .data (s.readReg r) := by
  rw [State.answer, if_pos (rd_isDefined hl r)]
  show Reply.data (s.readReg (Reg.ofAddress (s.cfg.huffBase + r.offset))) = _
  rw [ofAddress_offset hl]

/-- A read has its effect beside the turn it takes. -/
theorem turnTaken_afterRead (s : State) (r : Reg) :
    s.turnTaken.afterRead r = { s.afterRead r with turns := s.turnsAfter } := by
  cases r <;> rfl

/-- The step of a loop that is its read. -/
theorem step_loop_read (hl : s.cfg.Legal) (hturns : s.turns = .loop l :: rest)
    (hdue : s.coreDue l = false) :
    step s = .next { s.afterRead l.reg with
      turns := if (s.readReg l.reg).getLsbD l.bit == l.stop then rest
        else .loop (l.polled s.busy) :: rest
      reply := some (.data (s.readReg l.reg)) } := by
  have hdue' : ¬ s.coreDue l = true := by simp [hdue]
  have hn : s.HostNext (.rd s.cfg l.reg) := (act_loop hturns).trans (if_neg hdue')
  rw [step_rd hl hn, readReg_turnTaken, turnTaken_afterRead, turnsAfter_loop hturns, if_neg hdue',
    State.loopEnds, answer_rd hl]
  rfl

/-- The step of a loop that is the completion inside it leaves the loop. -/
theorem step_loop_completes (hturns : s.turns = .loop l :: rest) (hp : s.pend = some w)
    (hpolls : l.polls = 0) : step s = completeWord w s := by
  have hdue : s.coreDue l = true := by simp [State.coreDue, State.busy, hp, hpolls]
  have hsame : s.turnTaken = s := by
    rw [State.turnTaken, turnsAfter_loop hturns, if_pos hdue, ← hturns]
  rw [step_completes ((act_loop hturns).trans (if_pos hdue)) hp, hsame]

/-- BUSY is bit 0 of STATUS (R25). -/
theorem getLsbD_status_zero (s : State) : s.status.getLsbD 0 = s.busy := by
  have hbit {n : Nat} (x : BitVec n) (b : Bool) : (x ++ BitVec.ofBool b).getLsbD 0 = b := by
    rw [BitVec.getLsbD_append]; simp
  exact hbit _ s.busy

/-- A read of STATUS with no command pending ends `wait`. -/
theorem step_wait_idle {polls : Nat} (hl : s.cfg.Legal) (hturns : s.turns = wait polls :: rest)
    (hp : s.pend = none) :
    step s = .next { s with turns := rest, reply := some (.data s.status) } := by
  have hbusy : s.busy = false := by simp [State.busy, hp]
  have hdue : s.coreDue ⟨.status, 0, false, polls⟩ = false := by simp [State.coreDue, hbusy]
  rw [step_loop_read hl hturns hdue]
  simp only [State.readReg, getLsbD_status_zero, hbusy]
  rfl

/-- One that reads BUSY = 1 leaves it one poll less before the completion. -/
theorem step_wait_busy {polls : Nat} (hl : s.cfg.Legal)
    (hturns : s.turns = wait (polls + 1) :: rest) (hp : s.pend = some w) :
    step s = .next { s with turns := wait polls :: rest, reply := some (.data s.status) } := by
  have hbusy : s.busy = true := by simp [State.busy, hp]
  have hdue : s.coreDue ⟨.status, 0, false, polls + 1⟩ = false := by simp [State.coreDue]
  rw [step_loop_read hl hturns hdue]
  simp only [State.readReg, getLsbD_status_zero, hbusy]
  rfl

/-- `wait` of R99: the polls, the completion as it is without them, and the read that ends it. -/
theorem run_wait (polls : Nat) (hl : s.cfg.Legal) (hturns : s.turns = wait polls :: rest)
    (hp : s.pend = some w) (hw : completeWord w s = .next t) :
    core.run (polls + 2) s = .next { t with turns := rest, reply := some (.data t.status) } := by
  induction polls generalizing s t with
  | zero =>
    have hcore : step s = .next t := (step_loop_completes hturns hp rfl).trans hw
    have hread := step_wait_idle (completeWord_cfg hw ▸ hl)
      ((completeWord_turns hw).trans hturns) (completeWord_pend hw)
    exact run_two hcore hread
  | succ polls ih =>
    rw [run_succ (step_wait_busy hl hturns hp)]
    exact ih (t := t.withHost (wait polls :: rest) (some (.data s.status))) hl rfl hp
      (completeWord_withHost _ _ hw)

end Loops

/-- Settles O51: the write fills PEND, and `wait` runs through its polls (`run_wait`). -/
theorem doRunsTheCommand : Obligations.DoRunsTheCommand := by
  intro s t w polls rest hl hp hturns hw
  have hact : s.HostNext (.wr s.cfg .cmd w) := act_host hturns
  have hleft : s.turnsAfter = wait polls :: rest := turnsAfter_single hturns rfl
  obtain ⟨haccept, -⟩ := cmdWritesAreAcceptedOrDropped s hl
  have hdone := completeWord_withHost s.turnsAfter (some .done) hw
  rw [run_succ (haccept w hact hp)]
  exact run_wait (t := t.withHost s.turnsAfter (some .done)) polls hl hleft rfl hdone

/-- A read of an empty FIFO does not end a wait for a byte (R206). -/
theorem step_awaitByte {s : State} {polls : Nat} {rest : List Turn} (hl : s.cfg.Legal)
    (hturns : s.turns = awaitByte polls :: rest) (hp : s.pend = none) (hf : s.fifo = []) :
    step s = .next { s with reply := some (.data 0) } := by
  have hbusy : s.busy = false := by simp [State.busy, hp]
  have hdue : s.coreDue ⟨.out, 8, true, polls⟩ = false := by simp [State.coreDue, hbusy]
  rw [step_loop_read hl hturns hdue]
  simp only [State.readReg, outWord_of_empty hf, afterRead_out_of_empty hf, hbusy]
  rw [hturns]
  rfl

/-- Settles O59: `wait` ends at once or by `run_wait`, and a read of an empty FIFO keeps the
state (`step_awaitByte`). -/
theorem hostWaitsProceedOrHang : Obligations.HostWaitsProceedOrHang := by
  intro s hs
  refine ⟨fun polls rest hturns => ?proceeds, fun polls rest hturns hp hf k => ?hangs⟩
  case proceeds =>
    cases hp : s.pend with
    | none =>
      exact ⟨1, by omega, _, run_succ (step_wait_idle hs.legal hturns hp) 0, rfl, hp⟩
    | some w =>
      obtain ⟨t, ht⟩ := hs.completeWord_answers w
      have hend : t.pend = none := completeWord_pend ht
      exact ⟨polls + 2, le_rfl, _, run_wait polls hs.legal hturns hp ht, rfl, hend⟩
  case hangs =>
    induction k generalizing s with
    | zero => exact run_succ (step_awaitByte hs.legal hturns hp hf) 0
    | succ k ih =>
      rw [run_succ (step_awaitByte hs.legal hturns hp hf)]
      exact ih _ (hs.of_eq rfl hs.packer hs.fifo_le) hturns hp hf

end Sys2Proof.Machine
end
